-- ==== Sys2Proof/Word.lean ====
section
/-! DEFINITION. The machine's one word: the 8-bit byte. Every register, memory cell, address, immediate and the flags
are bytes (spec/00_scope.md R5, R8). -/

namespace Sys2Proof

/-- An unsigned 8-bit value, 0 to 255 (R8). -/
abbrev Byte := BitVec 8

end Sys2Proof
end

