-- ==== Sys2Proof/Syntax.lean ====
section
/-! DEFINITION. The instructions: one constructor for each row of spec/opcode_table.json, in its order (spec/30_encoding.md
R85). Operands are the raw operand bytes, because a register operand is a whole byte that the handler checks (R89). -/

namespace Sys2Proof

/-- The eleven instructions of R85. -/
inductive Instr where
  /-- `HLT` (R130). -/
  | hlt
  /-- `LDI Ra, v` (R131): destination register byte, immediate. -/
  | ldi (opa : Byte) (opb : Byte)
  /-- `PRN Ra` (R132): register byte. -/
  | prn (opa : Byte)
  /-- `MUL Ra, Rb` (R143): destination and source register bytes. -/
  | mul (opa : Byte) (opb : Byte)
  /-- `ADD Ra, Rb` (R144): destination and source register bytes. -/
  | add (opa : Byte) (opb : Byte)
  /-- `CMP Ra, Rb` (R145): the two compared registers' bytes. -/
  | cmp (opa : Byte) (opb : Byte)
  /-- `PUSH Ra` (R161): register byte. -/
  | push (opa : Byte)
  /-- `POP Ra` (R162): destination register byte. -/
  | pop (opa : Byte)
  /-- `CALL Ra` (R170): target register byte. -/
  | call (opa : Byte)
  /-- `RET` (R172). -/
  | ret
  /-- `JMP` (R173): an operand byte that is ignored and kept, so that the encoding is not lossy. -/
  | jmp (opa : Byte)
  deriving DecidableEq, Repr

end Sys2Proof
end

