-- ==== Sys2Proof/WellFormed.lean ====
section
/-! DEFINITION. Well-formed instructions: every operand byte that R85 marks as a register index is 0 to 7 (spec/30_encoding.md
R89). An ill-formed instruction still decodes and runs: its meaning raises `InvalidRegisterIndex` (R195). -/

namespace Sys2Proof

/-- A legal register index byte (R89: "Legal values are 0 to 7"). -/
def isRegByte (b : Byte) : Bool := b.toNat < 8

/-- Every register operand of the instruction is legal. LDI's `opb` is an immediate (R90) and JMP's operand byte is no
register index (R89, R91), so neither is checked. -/
def Instr.wellFormed : Instr → Bool
  | .hlt => true
  | .ldi a _ => isRegByte a
  | .prn a => isRegByte a
  | .mul a b => isRegByte a && isRegByte b
  | .add a b => isRegByte a && isRegByte b
  | .cmp a b => isRegByte a && isRegByte b
  | .push a => isRegByte a
  | .pop a => isRegByte a
  | .call a => isRegByte a
  | .ret => true
  | .jmp _ => true

end Sys2Proof
end

