-- ==== Sys2Proof/Decode.lean ====
section
/-! DEFINITION. The fields of the opcode byte, the opcode map, the decoder and the encoder (spec/30_encoding.md R80 to R92,
R97). Decoding is by the whole opcode byte (R87); the fields decide only the length and the advance (R82, R83). -/

namespace Sys2Proof

/-- The field `v[lo+width-1 : lo]` of a byte, as a number (spec/00_scope.md R7). -/
def bitField (v : Byte) (lo width : Nat) : Nat := v.toNat / 2 ^ lo % 2 ^ width

/-- `nops`, bits 7:6, the operand count (R81). -/
def opcodeNops (ir : Byte) : Nat := bitField ir 6 2

/-- `alu`, bit 5: informational, consulted by nothing in the machine (R81, R84). -/
def opcodeAluMarker (ir : Byte) : Bool := bitField ir 5 1 == 1

/-- `sets_pc`, bit 4: the handler writes the program counter and the cycle does not advance it (R83). -/
def opcodeSetsPc (ir : Byte) : Bool := bitField ir 4 1 == 1

/-- `id`, bits 3:0: the identifier within a class; it selects no instruction by itself (R81, R87). -/
def opcodeId (ir : Byte) : Nat := bitField ir 0 4

/-- The instruction length in bytes, `ir[7:6] + 1` (R82). -/
def opcodeLength (ir : Byte) : Nat := opcodeNops ir + 1

/-- The opcode map (R85), in the order of its table: each legal byte with the instruction that the two operand bytes after
it make. An unused operand byte is dropped (R91); JMP keeps its ignored one. -/
def opcodeMap : List (Byte × (Byte → Byte → Instr)) :=
  [(0x01, fun _ _ => .hlt),
   (0x82, fun a b => .ldi a b),
   (0x47, fun a _ => .prn a),
   (0xA2, fun a b => .mul a b),
   (0xA0, fun a b => .add a b),
   (0xA7, fun a b => .cmp a b)]
  ++
  [(0x45, fun a _ => .push a),
   (0x46, fun a _ => .pop a),
   (0x50, fun a _ => .call a),
   (0x11, fun _ _ => .ret),
   (0x54, fun a _ => .jmp a)]

/-- Why bytes are no instruction. The hardware's own rejection is `unrecognizedOpcode` (R88); the other two belong to
reading a finite list of bytes (`decodeBytes`), which the hardware never does. -/
inductive DecodeError where
  /-- The opcode byte is none of the eleven of R85. -/
  | unrecognizedOpcode (ir : Byte)
  /-- A list of bytes that ends before the instruction does. -/
  | truncated (ir : Byte)
  /-- A list with no opcode byte. -/
  | noBytes
  deriving DecidableEq, Repr

/-- Decode of the three latched bytes (spec/40_dispatch_cycle.md R114, R115): a lookup of the whole opcode byte. -/
def decode (ir opa opb : Byte) : Except DecodeError Instr :=
  match opcodeMap.lookup ir with
  | some build => .ok (build opa opb)
  | none => .error (.unrecognizedOpcode ir)

/-- One instruction from the head of a list of bytes, with the bytes after it: it takes exactly the instruction's length
(R82), so bytes beyond the instruction are not needed. -/
def decodeBytes : List Byte → Except DecodeError (Instr × List Byte)
  | [] => .error .noBytes
  | ir :: rest =>
    match opcodeMap.lookup ir with
    | none => .error (.unrecognizedOpcode ir)
    | some build =>
      if rest.length < opcodeNops ir then .error (.truncated ir)
      else .ok (build (rest.getD 0 0) (rest.getD 1 0), rest.drop (opcodeNops ir))

/-- Byte `k` of a number, byte 0 the least significant. -/
def byteOfWord (w k : Nat) : Byte := BitVec.ofNat 8 (w / 256 ^ k)

/-- The bits of a table word that belong to the instruction: those at and above `nbits` are 0. -/
def tableWord (nbits w : Nat) : Nat := w % 2 ^ nbits

/-- The decoder on a word numbered as spec/opcode_table.json numbers it: the opcode byte is bits 7:0, `opa` bits 15:8 and
`opb` bits 23:16, the order in which the bytes lie at ascending addresses (R80). -/
def decodeTableWord (nbits w : Nat) : Option Instr :=
  let v := tableWord nbits w
  (decode (byteOfWord v 0) (byteOfWord v 1) (byteOfWord v 2)).toOption

/-- The opcode byte of an instruction (R85). -/
def Instr.opcode : Instr → Byte
  | .hlt => 0x01
  | .ldi _ _ => 0x82
  | .prn _ => 0x47
  | .mul _ _ => 0xA2
  | .add _ _ => 0xA0
  | .cmp _ _ => 0xA7
  | .push _ => 0x45
  | .pop _ => 0x46
  | .call _ => 0x50
  | .ret => 0x11
  | .jmp _ => 0x54

/-- The operand bytes of an instruction in ascending address order (R80, R97). -/
def Instr.operandBytes : Instr → List Byte
  | .hlt => []
  | .ldi a v => [a, v]
  | .prn a => [a]
  | .mul a b => [a, b]
  | .add a b => [a, b]
  | .cmp a b => [a, b]
  | .push a => [a]
  | .pop a => [a]
  | .call a => [a]
  | .ret => []
  | .jmp v => [v]

/-- The encoder: the bytes of an instruction in ascending address order, opcode first (R80, R97). -/
def encode (i : Instr) : List Byte := i.opcode :: i.operandBytes

end Sys2Proof
end

