-- ==== Sys2Proof/Config.lean ====
section
/-! DEFINITION. The implementation parameters of spec/00_scope.md R5. Each is a fixed number of the source; none is free,
and the machine has no free value (spec/93_implementation_defined.md, Part 1). -/

namespace Sys2Proof.Config

/-- `MEM_SIZE`: the number of memory cells, at addresses 0 to 255 (R5). -/
def memSize : Nat := 256

/-- `SP_INDEX`: the register used as stack pointer (R5, R24). -/
def spIndex : Fin 8 := 7

/-- `SP_RESET`: register 7 after reset (R5, R25). -/
def spReset : Byte := 0xF3

/-- `PC_RESET`: the program counter after reset (R5, R40). -/
def pcReset : Byte := 0x00

/-- `LOAD_BASE`: the address of the first program byte (R5, R56). -/
def loadBase : Nat := 0

end Sys2Proof.Config
end

