-- ==== Sys2Proof/Machine/State.lean ====
section
/-! DEFINITION. The architectural state of spec/10_state.md R20 and nothing else, the fault causes of
spec/60_exceptions.md R191, and the reset state of R40. -/

namespace Sys2Proof.Machine

open Sys2Proof

/-- The operation kind the ALU is invoked with (spec/42_alu.md R140). The handlers use the first three only; `other` is any
kind outside them, which R141 makes a fault. DESIGN CHOICE: the spec gives such a kind no representation (N28), so it is a
number (notes/assumptions/4.md). -/
inductive AluKind where
  | add
  | mul
  | cmp
  | other (tag : Nat)
  deriving DecidableEq, Repr

/-- The four fault causes, each with its datum (R191). A fault is an architectural event: `State.raise` records it in
`status` and the cycle answers a NEXT state (R199), so no step answers `Host.Outcome.fault` (safe: nothing stops where the
hardware goes on; notes/assumptions/2.md). -/
inductive Fault where
  /-- Raised by dispatch of a byte that is none of the eleven opcodes, with the byte (R192). Safe: the spec's own fault. -/
  | unrecognizedOpcode (ir : Byte)
  /-- Raised by the ALU on a kind outside ADD, MUL and CMP (R193); no instruction invokes it so. Safe: the spec's own
  fault, unreachable from every program. -/
  | unsupportedAluOperation (kind : AluKind)
  /-- Raised by the fetch, the stack instructions, the accessors and the advance, with the out-of-range integer, 256 or -1
  in a run (R194). Safe: the spec's own fault. -/
  | outOfBoundsAddress (n : Int)
  /-- Raised by every handler with a register operand above 7, with the operand byte (R195). Safe: the spec's own fault. -/
  | invalidRegisterIndex (v : Byte)
  deriving DecidableEq, Repr

/-- What the model gives no meaning to. No instruction's meaning answers one of these. -/
inductive Refusal where
  /-- Raised by `exec` for an instruction without a meaning; no arm answers it in this model. Safe. -/
  | notModelled (mnemonic : String)
  /-- Raised by the loader event, not by an instruction: more than 256 bytes, "not a launch of this hardware" (R233, U17).
  Safe. -/
  | programTooLong (length : Nat)
  /-- Raised by the loader event, not by an instruction: a load while `status` is not `Idle` (R233). Safe. -/
  | loadOutsideIdle
  deriving DecidableEq, Repr

/-- The run status (R33). -/
inductive Status where
  | idle
  | running
  | halted
  | faulted (cause : Fault)
  deriving DecidableEq, Repr

/-- The memory array as (address, byte) pairs in the canonical form of `Memory.wf`: what is not listed is 0. -/
abbrev Memory := List Host.Cell

/-- The whole architectural state (R20). -/
structure State where
  /-- 256 cells of 8 bits, program and stack (R21). -/
  mem : Memory
  /-- The register file `x[0]` to `x[7]`; `x[7]` is the stack pointer (R22, R24). -/
  x : Vector Byte 8
  /-- The address of the next instruction to fetch (R26). -/
  pc : Byte
  /-- The comparison flags, Greater bit 0, Less bit 1, Equal bit 2 (R29). -/
  fl : Byte
  /-- The run status (R33). -/
  status : Status
  /-- Everything PRN has emitted, oldest first (R36). -/
  out : List Byte
  deriving DecidableEq, Repr

/-- The three bytes one fetch latches (R35). They live within one cycle and are no state. -/
structure Latches where
  ir : Byte
  opa : Byte
  opb : Byte
  deriving DecidableEq, Repr

/-- The state right after reset (R40): every cell 0, `x[0]` to `x[6]` 0, `x[7]` 0xF3, `pc` 0, `fl` 0, `Idle`, no output. -/
def State.reset : State where
  mem := []
  x := #v[0, 0, 0, 0, 0, 0, 0, Config.spReset]
  pc := Config.pcReset
  fl := 0
  status := .idle
  out := []

end Sys2Proof.Machine
end

