-- ==== Sys2Proof/Machine/Ops.lean ====
section
/-! DEFINITION. The shared operations: the memory array, the two accessors, the registers, the stack pointer's moves, the
fetch, the advance, and taking a fault. Every handler is written over these. -/

namespace Sys2Proof.Machine

open Sys2Proof

/-- The result of a handler that may raise: `.error` carries the fault and no state, so a handler that raises has changed
nothing (spec/60_exceptions.md R200). -/
abbrev Raising (α : Type) := Except Fault α

/-- The result of an instruction. -/
abbrev Outcome := Host.Outcome State Fault Refusal

/-! ### Values -/

/-- `trunc8(v) = v mod 256` (spec/00_scope.md R8). -/
def trunc8 (v : Nat) : Byte := BitVec.ofNat 8 v

/-- An integer is an address, 0 to 255 (spec/20_memory.md R52). -/
def inBounds : Int → Bool
  | .ofNat k => decide (k < Config.memSize)
  | .negSucc _ => false

/-! ### The memory array -/

/-- What a cell reads as when the list has no entry for it: the reset content of every cell (spec/10_state.md R40). -/
def unlistedByte : Byte := 0

/-- The byte at an address. -/
def Memory.read : Memory → Nat → Byte
  | [], _ => unlistedByte
  | (k, w) :: rest, a => if k = a then w else Memory.read rest a

/-- Put an entry in front of later ones, unless it says what an absent entry says. -/
def Memory.entry (a : Nat) (v : Byte) (rest : Memory) : Memory :=
  if v = unlistedByte then rest else (a, v) :: rest

/-- Write one cell, keeping the entries sorted and free of unlisted bytes. -/
def Memory.write : Memory → Nat → Byte → Memory
  | [], a, v => Memory.entry a v []
  | (k, w) :: rest, a, v =>
    if a < k then Memory.entry a v ((k, w) :: rest)
    else if a = k then Memory.entry a v rest
    else (k, w) :: Memory.write rest a v

/-- The canonical form from address `lo` on. -/
def Memory.wfFrom : Nat → Memory → Bool
  | _, [] => true
  | lo, (k, w) :: rest =>
    decide (lo ≤ k) && decide (k < Config.memSize) && decide (w ≠ unlistedByte) && Memory.wfFrom (k + 1) rest

/-- The canonical form: addresses strictly rising, all below 256, no entry equal to what an unlisted cell reads as. -/
def Memory.wf (m : Memory) : Bool := Memory.wfFrom 0 m

/-- The byte at an address of a state's memory. -/
def State.byteAt (s : State) (a : Nat) : Byte := Memory.read s.mem a

/-- `MemRead(addr, 1)` (R50): a bounds fault, or the byte; no state changes. -/
def memRead (addr : Int) (s : State) : Raising Byte :=
  if inBounds addr then .ok (s.byteAt addr.toNat) else .error (.outOfBoundsAddress addr)

/-- `MemWrite(addr, 1, v)` (R51): a bounds fault, or one cell takes `v mod 256`. -/
def memWrite (addr : Int) (v : Nat) (s : State) : Raising State :=
  if inBounds addr then .ok { s with mem := Memory.write s.mem addr.toNat (trunc8 v) }
  else .error (.outOfBoundsAddress addr)

/-! ### Registers -/

/-- Read of register `x[a]` (R22). No register is hard-wired (R23). -/
def State.reg (s : State) (a : Fin 8) : Byte := s.x[a.val]

/-- Write of register `x[a]`. -/
def State.setReg (s : State) (a : Fin 8) (v : Byte) : State := { s with x := s.x.set a.val v a.isLt }

/-- `sp`, another name for `x[7]` (R24). -/
def State.sp (s : State) : Byte := s.reg Config.spIndex

/-- Write of the program counter. -/
def State.setPc (s : State) (v : Byte) : State := { s with pc := v }

/-- Write of the whole flags register. -/
def State.setFl (s : State) (v : Byte) : State := { s with fl := v }

/-- Write of the run status. -/
def State.setStatus (s : State) (v : Status) : State := { s with status := v }

/-- `Output(v)` (spec/00_scope.md R10): append to the output trace. -/
def State.emit (s : State) (v : Byte) : State := { s with out := s.out ++ [v] }

/-! ### The stack pointer (spec/43_stack.md R160, R164, R165) -/

/-- The address a push stores to, `x[7] - 1`, as an integer: -1 when `x[7]` is 0. -/
def pushAddress (s : State) : Int := (s.sp.toNat : Int) - 1

/-- What `x[7]` becomes after a pop, `x[7] + 1`, as an integer: 256 when `x[7]` is 0xFF. -/
def popNext (s : State) : Int := (s.sp.toNat : Int) + 1

/-- Move the stack pointer to `t`, or fault when `t` leaves 0 to 255; it never wraps (R164). -/
def moveSp (t : Int) (s : State) : Raising State :=
  if inBounds t then .ok (s.setReg Config.spIndex (trunc8 t.toNat)) else .error (.outOfBoundsAddress t)

/-- The pre-decrement of PUSH and CALL (R161, R170). -/
def spDecrement (s : State) : Raising State := moveSp (pushAddress s) s

/-- The post-increment of POP, RET and JMP (R162, R172, R173). -/
def spIncrement (s : State) : Raising State := moveSp (popNext s) s

/-! ### Faults -/

/-- TAKING A FAULT, the one shared operation (spec/60_exceptions.md R199): `status <- Faulted(cause, datum)` and nothing else.
There is no vector, no saved register and no mode. There is no return either (R201): only reset leaves `Faulted`. -/
def State.raise (r : Fault) (s : State) : State := s.setStatus (.faulted r)

/-- The numbers of the code column of R191, which stand in no register. -/
def Fault.code : Fault → Nat
  | .unrecognizedOpcode _ => 1
  | .unsupportedAluOperation _ => 2
  | .outOfBoundsAddress _ => 3
  | .invalidRegisterIndex _ => 4

/-- The end of a handler begun in `s`: its new state, or `s` with the fault taken (R199, R200). Either is a next state. -/
def settle (s : State) : Raising State → Outcome
  | .ok t => .next t
  | .error r => .next (s.raise r)

/-! ### The cycle's own steps (spec/40_dispatch_cycle.md) -/

/-- Step 1, fetch (R111, R112): three reads at `pc`, `pc + 1` and `pc + 2`, in this order, whatever the opcode. -/
def fetch (s : State) : Raising Latches := do
  let ir ← memRead s.pc.toNat s
  let opa ← memRead (s.pc.toNat + 1) s
  let opb ← memRead (s.pc.toNat + 2) s
  return ⟨ir, opa, opb⟩

/-- A raise has ended the cycle (R120, R199). -/
def Status.isFaulted : Status → Bool
  | .faulted _ => true
  | .idle => false
  | .running => false
  | .halted => false

/-- Where the advance puts the program counter: the integer sum `pc + len` (R117). -/
def advanceTarget (ir : Byte) (s : State) : Int := s.pc.toNat + opcodeLength ir

/-- Step 4, advance (R117, R118, R119), on the state the handler left. It is not done after a raise; it is done after HLT.
A target of 256 faults after the instruction has completed, with `pc` kept. -/
def advance (ir : Byte) (s : State) : State :=
  if s.status.isFaulted then s
  else if opcodeSetsPc ir then s
  else if inBounds (advanceTarget ir s) then s.setPc (trunc8 (advanceTarget ir s).toNat)
  else s.raise (.outOfBoundsAddress (advanceTarget ir s))

/-! ### Placing an instruction where the next step fetches it -/

/-- Where an instruction can be fetched from: the program counter, or address 0 when the program counter is 254 or 255,
where nothing can execute (R112). DESIGN CHOICE for those two values (notes/assumptions/1.md). -/
def fetchBase (s : State) : Byte := if s.pc.toNat + 2 < Config.memSize then s.pc else Config.pcReset

/-- The three bytes of a table word at `base`, `base + 1` and `base + 2`. -/
def placeWord (m : Memory) (base w : Nat) : Memory :=
  Memory.write (Memory.write (Memory.write m base (byteOfWord w 0)) (base + 1) (byteOfWord w 1)) (base + 2) (byteOfWord w 2)

end Sys2Proof.Machine
end

