-- ==== Sys2Proof/Machine/Flags.lean ====
section
/-! DEFINITION. The flags register's bits (spec/10_state.md R29) and the only flag computation, CMP's (spec/42_alu.md R145,
R148). -/

namespace Sys2Proof.Machine

open Sys2Proof

/-- `fl` with Greater-than alone set: bit 0 (R29). -/
def flagG : Byte := 0x01

/-- `fl` with Less-than alone set: bit 1 (R29). -/
def flagL : Byte := 0x02

/-- `fl` with Equal alone set: bit 2 (R29). -/
def flagE : Byte := 0x04

/-- `cmp_flags` (R148): the whole byte CMP writes, by the unsigned comparison; bits 7 to 3 are 0 (R145). -/
def cmpFlags (va vb : Byte) : Byte :=
  if va.toNat = vb.toNat then flagE else if va.toNat < vb.toNat then flagL else flagG

/-- The values `fl` can hold in a run (R31): 0x00 before the first CMP, then one of the three. -/
def flagsLegal (fl : Byte) : Bool := fl == 0x00 || fl == flagG || fl == flagL || fl == flagE

end Sys2Proof.Machine
end

