-- ==== Sys2Proof/Machine/Operands.lean ====
section
/-! DEFINITION. Every operand form of the instruction set (spec/30_encoding.md R89 to R91, spec/42_alu.md R142). An operand
byte an instruction does not use has no form: the handler does not receive it (R91). -/

namespace Sys2Proof.Machine

open Sys2Proof

/-- A register-index operand (R89): the whole byte is the index, and a byte above 7 raises `InvalidRegisterIndex` with that
byte. -/
def regIndex (operand : Byte) : Raising (Fin 8) :=
  if h : operand.toNat < 8 then .ok ⟨operand.toNat, h⟩ else .error (.invalidRegisterIndex operand)

/-- `check2` (R142): both operands of MUL, ADD and CMP, `opa` first. -/
def regIndex2 (opa opb : Byte) : Raising (Fin 8 × Fin 8) := do
  let a ← regIndex opa
  let b ← regIndex opb
  return (a, b)

/-- The immediate operand of LDI (R90): the byte itself, neither extended nor scaled. -/
def immediate (operand : Byte) : Byte := operand

end Sys2Proof.Machine
end

