-- ==== Sys2Proof/Machine/Alu.lean ====
section
/-! DEFINITION. The ALU (spec/42_alu.md R140, R141) and MUL, ADD and CMP, the instructions that invoke it. -/

namespace Sys2Proof.Machine

open Sys2Proof

/-- The ALU's register result: `res` where `res_we` is 1 (R140). ADD and MUL are the integer result modulo 256 (R143, R144,
R146). -/
def aluResult (kind : AluKind) (va vb : Byte) : Option Byte :=
  match kind with
  | .add => some (trunc8 (va.toNat + vb.toNat))
  | .mul => some (trunc8 (va.toNat * vb.toNat))
  | .cmp => none
  | .other _ => none

/-- The ALU's flag result: `flags` where `flags_we` is 1 (R140). Only CMP writes the flags (R147). -/
def aluFlags (kind : AluKind) (va vb : Byte) : Option Byte :=
  match kind with
  | .add => none
  | .mul => none
  | .cmp => some (cmpFlags va vb)
  | .other _ => none

/-- The ALU has the operation kind (R140: "exactly three operation kinds"). -/
def AluKind.supported : AluKind → Bool
  | .add => true
  | .mul => true
  | .cmp => true
  | .other _ => false

/-- One invocation of the ALU on two register indices (R140, R141): both registers are read before anything is written. -/
def alu (kind : AluKind) (a b : Fin 8) (s : State) : Raising State :=
  if kind.supported then
    let s1 := (aluResult kind (s.reg a) (s.reg b)).elim s (s.setReg a)
    .ok ((aluFlags kind (s.reg a) (s.reg b)).elim s1 s1.setFl)
  else .error (.unsupportedAluOperation kind)

/-- A handler that hands its two checked operands to the ALU (R142). -/
def aluHandler (kind : AluKind) (opa opb : Byte) (s : State) : Outcome := settle s do
  let (a, b) ← regIndex2 opa opb
  alu kind a b s

/-- MUL (R143). -/
def execMul (opa opb : Byte) (s : State) : Outcome := aluHandler .mul opa opb s

/-- ADD (R144). -/
def execAdd (opa opb : Byte) (s : State) : Outcome := aluHandler .add opa opb s

/-- CMP (R145). -/
def execCmp (opa opb : Byte) (s : State) : Outcome := aluHandler .cmp opa opb s

end Sys2Proof.Machine
end

