-- ==== Sys2Proof/Machine/Basic.lean ====
section
/-! DEFINITION. HLT, LDI and PRN (spec/41_hlt_ldi_prn.md). A meaning is the handler of step 3 of the cycle; the program
counter's advance is step 4 (spec/40_dispatch_cycle.md R116, R117). -/

namespace Sys2Proof.Machine

open Sys2Proof

/-- HLT (R130). -/
def execHlt (s : State) : Outcome := .next (s.setStatus .halted)

/-- LDI (R131): the immediate into the register. -/
def execLdi (opa opb : Byte) (s : State) : Outcome := settle s do
  let a ← regIndex opa
  return s.setReg a (immediate opb)

/-- PRN (R132): the register's value onto the output trace. -/
def execPrn (opa : Byte) (s : State) : Outcome := settle s do
  let a ← regIndex opa
  return s.emit (s.reg a)

end Sys2Proof.Machine
end

