-- ==== Sys2Proof/Machine/Control.lean ====
section
/-! DEFINITION. CALL, RET and JMP (spec/44_control_transfer.md): the three instructions that write the program counter
themselves. -/

namespace Sys2Proof.Machine

open Sys2Proof

/-- The address after a CALL at `pc`, as an integer (R170). -/
def returnAddress (s : State) : Nat := s.pc.toNat + 2

/-- CALL (R170, R171): push the return address, then jump to the register named by the latched operand byte, read after the
push, so `CALL R7` jumps to the decremented stack pointer. -/
def execCall (opa : Byte) (s : State) : Outcome := settle s do
  let a ← regIndex opa
  let s1 ← spDecrement s
  let s2 ← memWrite s1.sp.toNat (returnAddress s) s1
  return s2.setPc (s2.reg a)

/-- Pop the program counter: the byte on top of the stack, then increment `x[7]` (R172, R173). -/
def popPc (s : State) : Raising State := do
  let v ← memRead s.sp.toNat s
  spIncrement (s.setPc v)

/-- RET (R172). -/
def execRet (s : State) : Outcome := settle s (popPc s)

/-- JMP (R173): the target is popped from the stack; the operand byte is ignored and not checked (R91, R174). -/
def execJmp (_opa : Byte) (s : State) : Outcome := settle s (popPc s)

end Sys2Proof.Machine
end

