-- ==== Sys2Proof/Machine/Stack.lean ====
section
/-! DEFINITION. PUSH and POP (spec/43_stack.md). The sub-steps are in the order the rules write them, each reading what the
one before it left (R163, spec/00_scope.md R10). -/

namespace Sys2Proof.Machine

open Sys2Proof

/-- PUSH (R161): decrement `x[7]`, then store the register as it is then, so `PUSH R7` stores the decremented value. -/
def execPush (opa : Byte) (s : State) : Outcome := settle s do
  let a ← regIndex opa
  let s1 ← spDecrement s
  memWrite s1.sp.toNat (s1.reg a).toNat s1

/-- POP (R162): load the register, then increment `x[7]` as the load left it, so `POP R7` ends with the loaded value plus
one. A raise keeps nothing of the load (R200). -/
def execPop (opa : Byte) (s : State) : Outcome := settle s do
  let a ← regIndex opa
  let v ← memRead s.sp.toNat s
  spIncrement (s.setReg a v)

end Sys2Proof.Machine
end

