-- ==== Sys2Proof/Machine/Dispatch.lean ====
section
/-! DEFINITION. Step 3 of the cycle: the fixed table from instruction to handler (spec/40_dispatch_cycle.md R114, spec/10_state.md
R41). -/

namespace Sys2Proof.Machine

open Sys2Proof

/-- The handler of each instruction, run on the machine state (R114). -/
def exec (i : Instr) (s : State) : Host.Outcome State Fault Refusal :=
  match i with
  | .hlt => Sys2Proof.Machine.execHlt s
  | .ldi opa opb => Sys2Proof.Machine.execLdi opa opb s
  | .prn opa => Sys2Proof.Machine.execPrn opa s
  | .mul opa opb => Sys2Proof.Machine.execMul opa opb s
  | .add opa opb => Sys2Proof.Machine.execAdd opa opb s
  | .cmp opa opb => Sys2Proof.Machine.execCmp opa opb s
  | .push opa => Sys2Proof.Machine.execPush opa s
  | .pop opa => Sys2Proof.Machine.execPop opa s
  | .call opa => Sys2Proof.Machine.execCall opa s
  | .ret => Sys2Proof.Machine.execRet s
  | .jmp opa => Sys2Proof.Machine.execJmp opa s

end Sys2Proof.Machine
end

