-- ==== Sys2Proof/Machine/Step.lean ====
section
/-! DEFINITION. One step is one cycle of the dispatcher (spec/40_dispatch_cycle.md R121, spec/70_reset_and_hazards.md R245). -/

namespace Sys2Proof.Machine

open Sys2Proof

/-- Step 4 on a handler's outcome. -/
def finishCycle (ir : Byte) : Outcome → Outcome
  | .next t => .next (advance ir t)
  | .fault r => .fault r
  | .refused r => .refused r

/-- Steps 2 to 4 on the latched bytes (R113 to R119): an opcode byte that the map does not have raises
`UnrecognizedOpcode` and ends the cycle (R115). -/
def dispatch (l : Latches) (s : State) : Outcome :=
  match decode l.ir l.opa l.opb with
  | .ok i => finishCycle l.ir (exec i s)
  | .error _ => .next (s.raise (.unrecognizedOpcode l.ir))

/-- `cycle()` (R121): fetch, decode, dispatch, advance; a raise in the fetch ends it (R112). -/
def cycle (s : State) : Outcome :=
  match fetch s with
  | .ok l => dispatch l s
  | .error r => .next (s.raise r)

/-- One step (R110, R120): a cycle while `Running`; in every other status the dispatcher does nothing, so the state is
unchanged (notes/assumptions/3.md). -/
def step (s : State) : Host.Outcome State Fault Refusal :=
  match s.status with
  | .running => cycle s
  | .idle => .next s
  | .halted => .next s
  | .faulted _ => .next s

/-- The state with an instruction of spec/opcode_table.json where the next step fetches it, and with the machine running, as
the loader and the `run` event leave it (R233, R234; notes/assumptions/1.md). -/
def State.withFetchWord (s : State) (nbits w : Nat) : State :=
  { s with
    mem := placeWord s.mem (fetchBase s).toNat (tableWord nbits w)
    pc := fetchBase s
    status := .running }

end Sys2Proof.Machine
end

