-- ==== Sys2Proof/Machine/Events.lean ====
section
/-! DEFINITION. What the outside world can do to the machine: reset, load and run (spec/70_reset_and_hazards.md R230 to R235).
None of them is an instruction, and nothing outside reaches the machine while it runs (R203, R236). -/

namespace Sys2Proof.Machine

open Sys2Proof

/-- The reset event (R230, R231): every piece of state to its reset value, from any status. -/
def State.resetEvent (_s : State) : State := State.reset

/-- The loader's writes: each byte through the write accessor, at successive addresses (R233, R51). -/
def loadFrom : Int → List Byte → State → Raising State
  | _, [], s => .ok s
  | addr, b :: rest, s =>
    match memWrite addr b.toNat s with
    | .ok t => loadFrom (addr + 1) rest t
    | .error r => .error r

/-- The load event (R233): a program of at most 256 bytes, from address 0 in order, while `Idle`. Any other load is no load
of this hardware and is refused by name (notes/assumptions/8.md). -/
def State.load (program : List Byte) (s : State) : Outcome :=
  if s.status ≠ .idle then .refused .loadOutsideIdle
  else if Config.memSize < program.length then .refused (.programTooLong program.length)
  else settle s (loadFrom Config.loadBase program s)

/-- The `run` event (R234): `Idle` to `Running` and nothing else; no effect in any other status. -/
def State.run (s : State) : State :=
  match s.status with
  | .idle => s.setStatus .running
  | .running => s
  | .halted => s
  | .faulted _ => s

/-- The launch of a program (R235): reset, load, run. -/
def State.launch (program : List Byte) : Outcome :=
  match State.reset.load program with
  | .next s => .next s.run
  | .fault r => .fault r
  | .refused r => .refused r

end Sys2Proof.Machine
end

