-- ==== Sys2Proof/Machine/Run.lean ====
section
/-! DEFINITION. A run: the sequence of cycles from the launch state (spec/40_dispatch_cycle.md R120 to R122). The machine has no
cycle limit of its own, and a run need not end, so the loop runs under fuel, as R122 asks of a model's executor. -/

namespace Sys2Proof.Machine

open Sys2Proof

/-- `run_loop()` (R121), at most `fuel` cycles of it: a cycle while `status` is `Running`, tested between cycles (R120). A
next state whose status is still `Running` has used the fuel up; any other status is where the run ended (R122). -/
def runLoop : Nat → State → Outcome
  | 0, s => .next s
  | fuel + 1, s =>
    match s.status with
    | .running =>
      match cycle s with
      | .next t => runLoop fuel t
      | .fault r => .fault r
      | .refused r => .refused r
    | .idle => .next s
    | .halted => .next s
    | .faulted _ => .next s

/-- The executor (R122): the run of a program from its launch state (spec/70_reset_and_hazards.md R235), under fuel. -/
def execute (fuel : Nat) (program : List Byte) : Outcome :=
  match State.launch program with
  | .next s => runLoop fuel s
  | .fault r => .fault r
  | .refused r => .refused r

end Sys2Proof.Machine
end

