-- ==== Sys2Proof/Safety.lean ====
section
/-! DEFINITION. The terms in which claims about this machine are stated: what a cycle is about to execute, what two states
share, and the invariant of every run. -/

namespace Sys2Proof.Machine

open Sys2Proof

/-- The fault records a run can leave (spec/60_exceptions.md R191, R194, R195): an illegal opcode byte, an address of 256 or -1,
an operand byte above 7; never an ALU kind (R193). -/
def Fault.legal : Fault → Bool
  | .unrecognizedOpcode ir => (opcodeMap.lookup ir).isNone
  | .unsupportedAluOperation _ => false
  | .outOfBoundsAddress n => n == 256 || n == -1
  | .invalidRegisterIndex v => decide (7 < v.toNat)

/-- The statuses a run can be in. -/
def Status.legal : Status → Bool
  | .idle => true
  | .running => true
  | .halted => true
  | .faulted r => r.legal

/-- The invariant of a run: memory in its canonical form, flags one of the four values of R31, and a fault record that R191
allows. -/
abbrev State.Inv (s : State) : Prop :=
  Memory.wf s.mem = true ∧ flagsLegal s.fl = true ∧ s.status.legal = true

/-- The machine is running and its next fetch succeeds with these three bytes (spec/40_dispatch_cycle.md R111, R112). -/
abbrev State.Fetches (s : State) (ir opa opb : Byte) : Prop :=
  s.status = .running ∧ s.pc.toNat ≤ 253 ∧
    s.byteAt s.pc.toNat = ir ∧ s.byteAt (s.pc.toNat + 1) = opa ∧ s.byteAt (s.pc.toNat + 2) = opb

/-- Every byte of memory reads the same in both states. -/
def SameMemory (s t : State) : Prop := ∀ a : Nat, t.byteAt a = s.byteAt a

/-- Every byte of memory but one reads the same in both states; the address may be out of range, and then every byte does. -/
def SameMemoryExcept (addr : Int) (s t : State) : Prop := ∀ a : Nat, (a : Int) ≠ addr → t.byteAt a = s.byteAt a

/-- Every register but those listed holds the same in both states. -/
def SameRegsExcept (dests : List Nat) (s t : State) : Prop := ∀ j : Fin 8, j.val ∉ dests → t.reg j = s.reg j

/-! ### The three fates of a run (spec/40_dispatch_cycle.md R122) -/

/-- Fate 1, the normal end: some number of cycles reaches `Halted`. -/
def EndsHalted (s : State) : Prop := ∃ (fuel : Nat) (t : State), runLoop fuel s = .next t ∧ t.status = .halted

/-- Fate 2, the abnormal end: some number of cycles reaches `Faulted` with this cause and datum. -/
def EndsFaulted (r : Fault) (s : State) : Prop :=
  ∃ (fuel : Nat) (t : State), runLoop fuel s = .next t ∧ t.status = .faulted r

/-- Fate 3: after every number of cycles the machine is still `Running`. -/
def NeverEnds (s : State) : Prop := ∀ fuel : Nat, ∃ t : State, runLoop fuel s = .next t ∧ t.status = .running

/-- The run comes to a state whose next cycle fetches and executes a HLT. -/
def ExecutesHlt (s : State) : Prop :=
  ∃ (fuel : Nat) (t : State) (opa opb : Byte), runLoop fuel s = .next t ∧ t.Fetches 0x01 opa opb

end Sys2Proof.Machine
end

