-- ==== Sys2Proof/Certificates/Slice0/Obligations.lean ====
section
/-! DEFINITION. The statements about the machine, in the order of the spec's files. A statement that a reader may need for more
than one rule says which rule each clause formalises. "The spec's decision D<n>" is a row of spec/92_eei_decisions.md: the
spec marks it as its own choice, so a statement that rests on one is a derived one. -/

open Sys2Proof Sys2Proof.Machine

/-! ### Encoding -/

/-- Each of the eleven opcode bytes, with any operand bytes, decodes to its row of the opcode map (spec/30_encoding.md section
3), and an operand byte lands in its operand. -/
def Obligations.OpcodeMapDecodes : Prop :=
  ∀ a b : Byte,
    decode 0b00000001 a b = .ok .hlt ∧ decode 0b10000010 a b = .ok (.ldi a b) ∧
    decode 0b01000111 a b = .ok (.prn a) ∧ decode 0b10100010 a b = .ok (.mul a b) ∧
    decode 0b10100000 a b = .ok (.add a b) ∧ decode 0b10100111 a b = .ok (.cmp a b) ∧
    decode 0b01000101 a b = .ok (.push a) ∧ decode 0b01000110 a b = .ok (.pop a) ∧
    decode 0b01010000 a b = .ok (.call a) ∧ decode 0b00010001 a b = .ok .ret ∧
    decode 0b01010100 a b = .ok (.jmp a)

/-- R113 and R83: the length is `ir[7:6] + 1` and `sets_pc` is `ir[4]`, functions of the opcode byte alone; of the legal
opcodes CALL, RET and JMP have bit 4 set and the other eight do not; with bit 4 set the cycle does not advance. -/
def Obligations.LengthAndSetsPcAreOpcodeFields : Prop :=
  (∀ ir : Byte, opcodeLength ir = (ir.extractLsb' 6 2).toNat + 1 ∧ opcodeSetsPc ir = ir.getLsbD 4) ∧
  (∀ ir ∈ [(0x50 : Byte), 0x11, 0x54], opcodeSetsPc ir = true) ∧
  (∀ ir ∈ [(0x01 : Byte), 0x82, 0x47, 0xA2, 0xA0, 0xA7, 0x45, 0x46], opcodeSetsPc ir = false) ∧
  (∀ (ir : Byte) (s : State), opcodeSetsPc ir = true → advance ir s = s)

/-- Decode and encode agree, with every operand at every value. An instruction's bytes decode to it with nothing of what
follows consumed; bytes that decode are the encoding of what they decode to; and the three bytes the hardware latches from
an encoding followed by anything decode to the instruction. -/
def Obligations.DecodeEncodeAgree : Prop :=
  (∀ (i : Instr) (rest : List Byte), decodeBytes (encode i ++ rest) = .ok (i, rest)) ∧
  (∀ (bytes : List Byte) (i : Instr) (rest : List Byte), decodeBytes bytes = .ok (i, rest) → bytes = encode i ++ rest) ∧
  (∀ (i : Instr) (p q : Byte), ∃ (ir opa opb : Byte) (rest : List Byte),
    encode i ++ [p, q] = ir :: opa :: opb :: rest ∧ decode ir opa opb = .ok i) ∧
  (∀ (ir opa opb : Byte) (i : Instr), decode ir opa opb = .ok i → ∃ rest, [ir, opa, opb] = encode i ++ rest)

/-! ### Memory -/

/-- R50: the read accessor answers the cell, or the bounds fault with the address. -/
def Obligations.ReadAccessorIsBounded : Prop :=
  ∀ (addr : Int) (s : State),
    memRead addr s = if addr < 0 ∨ addr > 255 then .error (.outOfBoundsAddress addr) else .ok (s.byteAt addr.toNat)

/-- R51: the write accessor faults out of bounds; in bounds exactly one cell changes, to the value modulo 256, and nothing
else of the state does. -/
def Obligations.WriteAccessorChangesOneCell : Prop :=
  ∀ (addr : Int) (v : Nat) (s : State), Memory.wf s.mem = true →
    (addr < 0 ∨ addr > 255 → memWrite addr v s = .error (.outOfBoundsAddress addr)) ∧
    (0 ≤ addr ∧ addr ≤ 255 → ∃ t, memWrite addr v s = .ok t ∧ (t.byteAt addr.toNat).toNat = v % 256 ∧
      SameMemoryExcept addr s t ∧ Memory.wf t.mem = true ∧
      t.x = s.x ∧ t.pc = s.pc ∧ t.fl = s.fl ∧ t.status = s.status ∧ t.out = s.out)

/-- Two canonical memories that read alike at every address are equal data. -/
def Obligations.CanonicalMemoriesReadingAlikeAreEqual : Prop :=
  ∀ m n : Memory, Memory.wf m = true → Memory.wf n = true → (∀ a, Memory.read m a = Memory.read n a) → m = n

/-! ### The cycle -/

/-- A step runs the decoded instruction: the handler, then the advance of the length and `sets_pc` fields, which is not done
after a raise, which HLT has too, and which faults at 256 (the spec's decision D4) with the instruction's effect kept. -/
def Obligations.StepRunsDecodedInstruction : Prop :=
  ∀ (s : State) (ir opa opb : Byte) (i : Instr), s.Fetches ir opa opb → decode ir opa opb = .ok i →
    ∃ t, exec i s = .next t ∧
      step s = .next
        (if t.status.isFaulted then t
         else if ir.getLsbD 4 then t
         else if s.pc.toNat + ((ir.extractLsb' 6 2).toNat + 1) ≤ 255 then
           { t with pc := BitVec.ofNat 8 (s.pc.toNat + ((ir.extractLsb' 6 2).toNat + 1)) }
         else { t with status := .faulted (.outOfBoundsAddress 256) })

/-- R116: the handler runs on the state of the fetch, so `pc` is still the address of the opcode byte; the handlers other than
those of CALL, RET and JMP neither write the program counter nor read it. -/
def Obligations.OnlyCallRetAndJmpTouchPc : Prop :=
  (∀ (s : State) (ir opa opb : Byte) (i : Instr), s.Fetches ir opa opb → decode ir opa opb = .ok i →
    step s = finishCycle ir (exec i s)) ∧
  (∀ (i : Instr) (s t : State) (p : Byte), (∀ a, i ≠ .call a) → i ≠ .ret → (∀ v, i ≠ .jmp v) → exec i s = .next t →
    t.pc = s.pc ∧ exec i { s with pc := p } = .next { t with pc := p })

/-- The spec's decision D2 (spec/40_dispatch_cycle.md, fetch bounds): at 254 and 255 the fetch faults, whatever the bytes. -/
def Obligations.FetchPastTopFaults : Prop :=
  ∀ s : State, s.status = .running → 254 ≤ s.pc.toNat →
    step s = .next { s with status := .faulted (.outOfBoundsAddress 256) }

/-- R115: an opcode byte that is none of the eleven raises `UnrecognizedOpcode` with that byte; no state but `status` changes,
and there is no recovery: every later step leaves that state as it is. -/
def Obligations.UnrecognizedOpcodeFaults : Prop :=
  ∀ (s : State) (ir opa opb : Byte), s.Fetches ir opa opb →
    ir ∉ [(0x01 : Byte), 0x82, 0x47, 0xA2, 0xA0, 0xA7, 0x45, 0x46, 0x50, 0x11, 0x54] →
    step s = .next { s with status := .faulted (.unrecognizedOpcode ir) } ∧
    step { s with status := .faulted (.unrecognizedOpcode ir) } = .next { s with status := .faulted (.unrecognizedOpcode ir) }

/-- Every step answers a next state, from every state: the machine has no behaviour outside its own statuses. That a fault
is a next state is the model's reading of the fault entry (notes/assumptions/2.md). -/
def Obligations.EveryStepAnswersNext : Prop :=
  ∀ s : State, ∃ t, step s = .next t

/-- The transitions of `status` (spec/10_state.md section 6, the spec's decisions D9 and D21) and no others: a step outside
`Running` changes nothing, a step in `Running` never makes it `Idle`, a load keeps it, `run` starts an idle machine only, and
reset makes it `Idle`. -/
def Obligations.StatusTransitions : Prop :=
  (∀ s : State, s.status ≠ .running → step s = .next s) ∧
  (∀ s t : State, s.status = .running → step s = .next t → t.status ≠ .idle) ∧
  (∀ (p : List Byte) (s t : State), s.load p = .next t → s.status = .idle ∧ t.status = .idle) ∧
  (∀ s : State, s.run.status = if s.status = .idle then .running else s.status) ∧
  (∀ s : State, s.resetEvent.status = .idle)

/-- A cycle that faults has changed nothing but `status` (the spec's decision D8), except the advance fault of a three-byte
instruction at 253 (D4), which keeps the whole effect of its handler. -/
def Obligations.FaultingCycleIsPrecise : Prop :=
  ∀ (s t : State) (r : Fault), s.status = .running → step s = .next t → t.status = .faulted r →
    t = { s with status := .faulted r } ∨
    (s.pc.toNat = 253 ∧ s.byteAt 253 ∈ [(0x82 : Byte), 0xA2, 0xA0, 0xA7] ∧ r = .outOfBoundsAddress 256 ∧
      ∃ (i : Instr) (u : State), decode (s.byteAt 253) (s.byteAt 254) (s.byteAt 255) = .ok i ∧ exec i s = .next u ∧
        u.status = .running ∧ t = { u with status := .faulted (.outOfBoundsAddress 256) })

/-! ### What each instruction's handler does, and that it completes -/

/-- HLT completes in every state: `status` becomes `Halted` and nothing else changes. -/
def Obligations.HltSetsHalted : Prop :=
  ∀ s : State, exec .hlt s = .next { s with status := .halted }

/-- LDI completes for every register and immediate, register 7 included: the register takes the byte. -/
def Obligations.LdiLoadsImmediate : Prop :=
  ∀ (s : State) (a v : Byte) (ha : a.toNat < 8), exec (.ldi a v) s = .next { s with x := s.x.set a.toNat v ha }

/-- PRN completes for every register: its value is appended to the output trace. -/
def Obligations.PrnEmitsRegister : Prop :=
  ∀ (s : State) (a : Byte) (ha : a.toNat < 8), exec (.prn a) s = .next { s with out := s.out ++ [s.x[a.toNat]] }

/-- ADD and MUL complete for every pair of registers, one and the same included: the destination takes the integer sum or
product modulo 256; no flag is written. -/
def Obligations.AddAndMulAreModular : Prop :=
  ∀ (s : State) (a b : Byte) (ha : a.toNat < 8) (hb : b.toNat < 8),
    exec (.add a b) s =
      .next { s with x := s.x.set a.toNat (BitVec.ofNat 8 ((s.x[a.toNat].toNat + s.x[b.toNat].toNat) % 256)) ha } ∧
    exec (.mul a b) s =
      .next { s with x := s.x.set a.toNat (BitVec.ofNat 8 ((s.x[a.toNat].toNat * s.x[b.toNat].toNat) % 256)) ha }

/-- R148: CMP completes for every pair of registers and writes exactly one of 0x04, 0x02, 0x01 into `fl`: Equal iff the
bytes are equal, Less iff the first is below the second, Greater iff it is above, unsigned. -/
def Obligations.CmpWritesOneHotFlag : Prop :=
  ∀ (s : State) (a b : Byte) (ha : a.toNat < 8) (hb : b.toNat < 8), ∃ f : Byte,
    exec (.cmp a b) s = .next { s with fl := f } ∧ (f = 0x04 ∨ f = 0x02 ∨ f = 0x01) ∧
    (f = 0x04 ↔ s.x[a.toNat].toNat = s.x[b.toNat].toNat) ∧
    (f = 0x02 ↔ s.x[a.toNat].toNat < s.x[b.toNat].toNat) ∧
    (f = 0x01 ↔ s.x[a.toNat].toNat > s.x[b.toNat].toNat)

/-- PUSH completes whenever `x[7]` is not 0: `x[7]` is decremented and the cell it then points to takes the register, which
for PUSH R7 is the decremented value (the spec's decision D7). -/
def Obligations.PushStoresBelowStackPointer : Prop :=
  ∀ (s : State) (a : Byte) (ha : a.toNat < 8), 1 ≤ s.x[7].toNat →
    exec (.push a) s = .next { s with
      x := s.x.set 7 (s.x[7] - 1)
      mem := Memory.write s.mem (s.x[7].toNat - 1) (if a.toNat = 7 then s.x[7] - 1 else s.x[a.toNat]) }

/-- POP completes whenever the incremented stack pointer fits a byte: the register takes the byte on top of the stack and
`x[7]` is incremented; POP R7 ends with the loaded byte plus one (the spec's decision D7). -/
def Obligations.PopLoadsAndIncrements : Prop :=
  ∀ (s : State) (a : Byte) (ha : a.toNat < 8),
    (a.toNat ≠ 7 → s.x[7].toNat ≠ 255 → exec (.pop a) s = .next { s with
      x := (s.x.set a.toNat (s.byteAt s.x[7].toNat) ha).set 7 (s.x[7] + 1) }) ∧
    (a.toNat = 7 → (s.byteAt s.x[7].toNat).toNat ≠ 255 → exec (.pop a) s = .next { s with
      x := s.x.set 7 (s.byteAt s.x[7].toNat + 1) })

/-- CALL completes whenever `x[7]` is not 0: the byte `pc + 2` goes to the cell below the stack pointer, `x[7]` is
decremented, and `pc` takes the register, which for CALL R7 is the decremented value (the spec's decision D7). A fetched CALL
has `pc` at most 253. -/
def Obligations.CallPushesReturnAddress : Prop :=
  ∀ (s : State) (a : Byte) (ha : a.toNat < 8), 1 ≤ s.x[7].toNat → s.pc.toNat ≤ 253 →
    exec (.call a) s = .next { s with
      x := s.x.set 7 (s.x[7] - 1)
      mem := Memory.write s.mem (s.x[7].toNat - 1) (BitVec.ofNat 8 (s.pc.toNat + 2))
      pc := if a.toNat = 7 then s.x[7] - 1 else s.x[a.toNat] }

/-- RET and JMP, JMP with any operand byte, complete whenever `x[7]` is not 0xFF, with the same effect: `pc` takes the byte
on top of the stack and `x[7]` is incremented. That JMP pops the stack is the spec's decision D1. -/
def Obligations.RetAndJmpPopProgramCounter : Prop :=
  ∀ (s : State) (v : Byte), s.x[7].toNat ≠ 255 →
    exec .ret s = .next { s with pc := s.byteAt s.x[7].toNat, x := s.x.set 7 (s.x[7] + 1) } ∧
    exec (.jmp v) s = .next { s with pc := s.byteAt s.x[7].toNat, x := s.x.set 7 (s.x[7] + 1) }

/-! ### Where instructions take a fault -/

/-- A register operand above 7 raises `InvalidRegisterIndex` with the byte, `opa` before `opb` (the spec's decisions D5, D11),
and changes nothing else. -/
def Obligations.RegisterIndexAboveSevenFaults : Prop :=
  ∀ (s : State) (a b : Byte),
    (7 < a.toNat → ∀ i ∈ [Instr.ldi a b, .prn a, .mul a b, .add a b, .cmp a b, .push a, .pop a, .call a],
      exec i s = .next { s with status := .faulted (.invalidRegisterIndex a) }) ∧
    (a.toNat ≤ 7 → 7 < b.toNat → ∀ i ∈ [Instr.mul a b, .add a b, .cmp a b],
      exec i s = .next { s with status := .faulted (.invalidRegisterIndex b) })

/-- A stack pointer that would leave 0 to 255 faults with the value it would take, -1 or 256, and changes nothing else (the
spec's decision D3): it never wraps. -/
def Obligations.StackPointerNeverWraps : Prop :=
  ∀ (s : State) (a v : Byte), a.toNat < 8 →
    (s.x[7].toNat = 0 → ∀ i ∈ [Instr.push a, .call a],
      exec i s = .next { s with status := .faulted (.outOfBoundsAddress (-1)) }) ∧
    (s.x[7].toNat = 255 → ∀ i ∈ [Instr.ret, .jmp v],
      exec i s = .next { s with status := .faulted (.outOfBoundsAddress 256) }) ∧
    (a.toNat ≠ 7 → s.x[7].toNat = 255 → exec (.pop a) s = .next { s with status := .faulted (.outOfBoundsAddress 256) }) ∧
    (a.toNat = 7 → (s.byteAt s.x[7].toNat).toNat = 255 →
      exec (.pop a) s = .next { s with status := .faulted (.outOfBoundsAddress 256) })

/-- An ALU invoked with a kind outside ADD, MUL and CMP raises `UnsupportedAluOperation` with the kind (the spec's decision
D23; the number for the kind is the model's choice, notes/assumptions/4.md). -/
def Obligations.AluRejectsOtherKinds : Prop :=
  ∀ (tag : Nat) (a b : Fin 8) (s : State),
    settle s (alu (.other tag) a b s) = .next { s with status := .faulted (.unsupportedAluOperation (.other tag)) }

/-- No instruction raises `UnsupportedAluOperation`: a step that enters `Faulted` never has that cause (the spec's decision
D23). -/
def Obligations.NoStepRaisesUnsupportedAluOperation : Prop :=
  ∀ (s t : State) (k : AluKind), s.status = .running → step s = .next t →
    t.status ≠ .faulted (.unsupportedAluOperation k)

/-! ### Frames -/

/-- HLT, LDI, PRN, MUL, ADD and CMP, on any operand bytes: memory and `pc` are unchanged, every register but LDI's, MUL's and
ADD's destination is, `fl` is but by CMP, the output trace is but by PRN, which only extends it, and `status` is but by HLT
and by a raise. -/
def Obligations.RegisterInstructionsFrame : Prop :=
  ∀ (s t : State) (a b : Byte),
    (∀ i ∈ [Instr.hlt, .ldi a b, .prn a, .mul a b, .add a b, .cmp a b], exec i s = .next t →
      SameMemory s t ∧ t.pc = s.pc ∧ SameRegsExcept [a.toNat] s t ∧ s.out <+: t.out) ∧
    (∀ i ∈ [Instr.hlt, .prn a, .cmp a b], exec i s = .next t → SameRegsExcept [] s t) ∧
    (∀ i ∈ [Instr.hlt, .ldi a b, .prn a, .mul a b, .add a b], exec i s = .next t → t.fl = s.fl) ∧
    (∀ i ∈ [Instr.hlt, .ldi a b, .mul a b, .add a b, .cmp a b], exec i s = .next t → t.out = s.out) ∧
    (∀ i ∈ [Instr.ldi a b, .prn a, .mul a b, .add a b, .cmp a b], exec i s = .next t → i.wellFormed = true →
      t.status = s.status)

/-- PUSH and CALL: every byte of memory but the one at the push address, `x[7] - 1` of the state before, reads as before,
and every register but `x[7]`; the flags and the output trace are unchanged; PUSH leaves `pc`; `status` changes by a raise
only. -/
def Obligations.StackStoresFrame : Prop :=
  ∀ (s t : State) (a : Byte),
    (∀ i ∈ [Instr.push a, .call a], exec i s = .next t →
      SameMemoryExcept (pushAddress s) s t ∧ SameRegsExcept [7] s t ∧ t.fl = s.fl ∧ t.out = s.out ∧
      (a.toNat < 8 → 1 ≤ s.x[7].toNat → t.status = s.status)) ∧
    (exec (.push a) s = .next t → t.pc = s.pc)

/-- POP, RET and JMP: every byte of memory reads as before; every register but `x[7]` and POP's destination is unchanged, and
so are the flags and the output trace; POP leaves `pc`; a `status` that changed was changed by a raise. -/
def Obligations.StackLoadsFrame : Prop :=
  ∀ (s t : State) (a : Byte),
    (∀ i ∈ [Instr.pop a, .ret, .jmp a], exec i s = .next t →
      SameMemory s t ∧ SameRegsExcept [a.toNat, 7] s t ∧ t.fl = s.fl ∧ t.out = s.out ∧
      (t.status = s.status ∨ ∃ r, t = { s with status := .faulted r })) ∧
    (∀ i ∈ [Instr.ret, .jmp a], exec i s = .next t → SameRegsExcept [7] s t) ∧
    (exec (.pop a) s = .next t → t.pc = s.pc)

/-! ### Each instruction's whole rule, over one cycle -/

/-- HLT's rule (spec/41_hlt_ldi_prn.md; the spec's decisions D2, D9): the cycle sets `Halted` and advances `pc` by one, and the machine then stays as it is; at 254 or 255 it faults
in the fetch and does not halt; and no other cycle reaches `Halted`. -/
def Obligations.HltCycle : Prop :=
  ∀ s : State, s.status = .running →
    (s.byteAt s.pc.toNat = 0x01 →
      (s.pc.toNat ≤ 253 →
        step s = .next { s with status := .halted, pc := s.pc + 1 } ∧
        step { s with status := .halted, pc := s.pc + 1 } = .next { s with status := .halted, pc := s.pc + 1 }) ∧
      (254 ≤ s.pc.toNat → step s = .next { s with status := .faulted (.outOfBoundsAddress 256) })) ∧
    (∀ t : State, step s = .next t → t.status = .halted → s.byteAt s.pc.toNat = 0x01)

/-- LDI's rule (spec/41_hlt_ldi_prn.md; the spec's decisions D4, D5, D25). -/
def Obligations.LdiCycle : Prop :=
  ∀ (s : State) (a v : Byte), s.Fetches 0x82 a v →
    step s = .next
      (if ha : a.toNat < 8 then
        if s.pc.toNat = 253 then
          { s with x := s.x.set a.toNat v ha, status := .faulted (.outOfBoundsAddress 256) }
        else { s with x := s.x.set a.toNat v ha, pc := s.pc + 3 }
      else { s with status := .faulted (.invalidRegisterIndex a) })

/-- PRN's rule (spec/41_hlt_ldi_prn.md; the spec's decisions D5, D12): the byte after the operand is ignored. -/
def Obligations.PrnCycle : Prop :=
  ∀ (s : State) (a b : Byte), s.Fetches 0x47 a b →
    step s = .next
      (if ha : a.toNat < 8 then { s with out := s.out ++ [s.x[a.toNat]], pc := s.pc + 2 }
      else { s with status := .faulted (.invalidRegisterIndex a) })

/-- MUL's rule (spec/42_alu.md; the spec's decisions D4, D5): the low 8 bits of the product of the two bytes, both read before the write; `fl`, memory, `out` and the other
registers unchanged; an index above 7 faults, `opa` first; at 253 the register is written and then the advance faults. -/
def Obligations.MulCycle : Prop :=
  ∀ (s : State) (a b : Byte), s.Fetches 0xA2 a b →
    step s = .next
      (if ha : a.toNat < 8 then
        if hb : b.toNat < 8 then
          let x := s.x.set a.toNat (BitVec.ofNat 8 ((s.x[a.toNat].toNat * s.x[b.toNat].toNat) % 256)) ha
          if s.pc.toNat = 253 then { s with x := x, status := .faulted (.outOfBoundsAddress 256) }
          else { s with x := x, pc := s.pc + 3 }
        else { s with status := .faulted (.invalidRegisterIndex b) }
      else { s with status := .faulted (.invalidRegisterIndex a) })

/-- ADD's rule (spec/42_alu.md; the spec's decisions D4, D5): the low 8 bits of the sum of the two bytes; otherwise as MUL. -/
def Obligations.AddCycle : Prop :=
  ∀ (s : State) (a b : Byte), s.Fetches 0xA0 a b →
    step s = .next
      (if ha : a.toNat < 8 then
        if hb : b.toNat < 8 then
          let x := s.x.set a.toNat (BitVec.ofNat 8 ((s.x[a.toNat].toNat + s.x[b.toNat].toNat) % 256)) ha
          if s.pc.toNat = 253 then { s with x := x, status := .faulted (.outOfBoundsAddress 256) }
          else { s with x := x, pc := s.pc + 3 }
        else { s with status := .faulted (.invalidRegisterIndex b) }
      else { s with status := .faulted (.invalidRegisterIndex a) })

/-- CMP's rule (spec/42_alu.md; the spec's decisions D4, D5, D15): the whole of `fl` is replaced, no register is written. -/
def Obligations.CmpCycle : Prop :=
  ∀ (s : State) (a b : Byte), s.Fetches 0xA7 a b →
    step s = .next
      (if ha : a.toNat < 8 then
        if hb : b.toNat < 8 then
          let f : Byte := if s.x[a.toNat] = s.x[b.toNat] then 0b00000100
            else if s.x[a.toNat] < s.x[b.toNat] then 0b00000010 else 0b00000001
          if s.pc.toNat = 253 then { s with fl := f, status := .faulted (.outOfBoundsAddress 256) }
          else { s with fl := f, pc := s.pc + 3 }
        else { s with status := .faulted (.invalidRegisterIndex b) }
      else { s with status := .faulted (.invalidRegisterIndex a) })

/-- PUSH's rule (spec/43_stack.md; the spec's decisions D3, D5, D7). -/
def Obligations.PushCycle : Prop :=
  ∀ (s : State) (a b : Byte), s.Fetches 0x45 a b →
    step s = .next
      (if ha : a.toNat < 8 then
        if s.x[7].toNat = 0 then { s with status := .faulted (.outOfBoundsAddress (-1)) }
        else { s with
          x := s.x.set 7 (s.x[7] - 1)
          mem := Memory.write s.mem (s.x[7].toNat - 1) (s.x.set 7 (s.x[7] - 1))[a.toNat]
          pc := s.pc + 2 }
      else { s with status := .faulted (.invalidRegisterIndex a) })

/-- POP's rule (spec/43_stack.md; the spec's decisions D3, D5, D7, D8). -/
def Obligations.PopCycle : Prop :=
  ∀ (s : State) (a b : Byte), s.Fetches 0x46 a b →
    step s = .next
      (if ha : a.toNat < 8 then
        let v := s.byteAt s.x[7].toNat
        let sp := if a.toNat = 7 then v else s.x[7]
        if sp.toNat + 1 > 255 then { s with status := .faulted (.outOfBoundsAddress 256) }
        else { s with x := (s.x.set a.toNat v ha).set 7 (sp + 1), pc := s.pc + 2 }
      else { s with status := .faulted (.invalidRegisterIndex a) })

/-- CALL's rule (spec/44_control_transfer.md; the spec's decisions D3, D5, D6, D7). The register is the one the latched operand
byte names, also when the push overwrites that byte in memory (`x[7] = pc + 2`). -/
def Obligations.CallCycle : Prop :=
  ∀ (s : State) (a b : Byte), s.Fetches 0x50 a b →
    step s = .next
      (if ha : a.toNat < 8 then
        if s.x[7].toNat = 0 then { s with status := .faulted (.outOfBoundsAddress (-1)) }
        else { s with
          x := s.x.set 7 (s.x[7] - 1)
          mem := Memory.write s.mem (s.x[7].toNat - 1) (s.pc + 2)
          pc := (s.x.set 7 (s.x[7] - 1))[a.toNat] }
      else { s with status := .faulted (.invalidRegisterIndex a) })

/-- RET's and JMP's rules (spec/44_control_transfer.md; the spec's decisions D1, D3, D8): the same effect, JMP's operand byte
ignored and not range-checked; no advance. -/
def Obligations.RetAndJmpCycle : Prop :=
  ∀ (s : State) (ir a b : Byte), ir = 0x11 ∨ ir = 0x54 → s.Fetches ir a b →
    step s = .next
      (if s.x[7].toNat + 1 > 255 then { s with status := .faulted (.outOfBoundsAddress 256) }
      else { s with pc := s.byteAt s.x[7].toNat, x := s.x.set 7 (s.x[7] + 1) })

/-! ### Rules of the whole machine -/

/-- Only a fetched CMP changes `fl`, and what it leaves is one of 0x01, 0x02, 0x04. -/
def Obligations.FlagsWrittenOnlyByCmp : Prop :=
  ∀ s t : State, step s = .next t → t.fl ≠ s.fl →
    s.status = .running ∧ s.pc.toNat ≤ 253 ∧ s.byteAt s.pc.toNat = 0xA7 ∧ (t.fl = 0x01 ∨ t.fl = 0x02 ∨ t.fl = 0x04)

/-- No instruction reads `fl` or the output trace (spec/10_state.md sections 5 and 8): two states that differ only in them
step alike, and differ afterwards only in them. -/
def Obligations.FlagsAndOutputSteerNothing : Prop :=
  ∀ (s t : State) (f : Byte) (o : List Byte), step s = .next t → ∃ u, step { s with fl := f, out := o } = .next u ∧
    u.mem = t.mem ∧ u.x = t.x ∧ u.pc = t.pc ∧ u.status = t.status ∧
    (u.fl = t.fl ∨ (u.fl = f ∧ t.fl = s.fl)) ∧
    (∃ emitted : List Byte, t.out = s.out ++ emitted ∧ u.out = o ++ emitted)

/-- The output trace only grows, by one byte per executed PRN: the operand register's value. -/
def Obligations.OutputGrowsOnlyByPrn : Prop :=
  ∀ s t : State, step s = .next t → t.out = s.out ∨
    (s.status = .running ∧ s.pc.toNat ≤ 253 ∧ s.byteAt s.pc.toNat = 0x47 ∧
      ∃ a : Fin 8, (s.byteAt (s.pc.toNat + 1)).toNat = a.val ∧ t.out = s.out ++ [s.reg a])

/-- Memory changes only by a fetched PUSH or CALL, and then at most in the one cell below the stack pointer. -/
def Obligations.MemoryWrittenOnlyByPushAndCall : Prop :=
  ∀ s t : State, step s = .next t → t.mem = s.mem ∨
    (s.status = .running ∧ s.pc.toNat ≤ 253 ∧ (s.byteAt s.pc.toNat = 0x45 ∨ s.byteAt s.pc.toNat = 0x50) ∧
      1 ≤ s.x[7].toNat ∧ SameMemoryExcept (pushAddress s) s t)

/-- A byte stored by PUSH is what the very next fetch reads (spec/20_memory.md section 5): with `x[7] = pc + 3` the PUSH
stores onto the next opcode byte. -/
def Obligations.StoredByteIsFetchedNext : Prop :=
  ∀ (s : State) (a b : Byte) (ha : a.toNat < 7), Memory.wf s.mem = true → s.Fetches 0x45 a b → s.pc.toNat ≤ 251 →
    s.x[7].toNat = s.pc.toNat + 3 →
    ∃ t, step s = .next t ∧ t.Fetches s.x[a.toNat] (s.byteAt (s.pc.toNat + 3)) (s.byteAt (s.pc.toNat + 4))

/-- PUSH into POP of the same register restores every register, register 7 included (spec/95_test_vectors.md S4, Q6), for code
the pushed byte does not overwrite; the pushed cell alone may differ in memory. -/
def Obligations.PushThenPopRestores : Prop :=
  ∀ (s : State) (a b : Byte), a.toNat < 8 → Memory.wf s.mem = true → s.Fetches 0x45 a b → s.pc.toNat ≤ 251 →
    s.byteAt (s.pc.toNat + 2) = 0x46 → s.byteAt (s.pc.toNat + 3) = a → 1 ≤ s.x[7].toNat →
    s.x[7].toNat ≠ s.pc.toNat + 3 → s.x[7].toNat ≠ s.pc.toNat + 4 →
    ∃ t u, step s = .next t ∧ step t = .next u ∧ u.x = s.x ∧ u.pc = s.pc + 4 ∧ u.fl = s.fl ∧ u.out = s.out ∧
      u.status = .running ∧ SameMemoryExcept (pushAddress s) s u

/-- CALL, then any body that leaves the stack pointer and the pushed cell as CALL left them, then RET, continues at the
CALL's address plus two with the stack pointer restored (spec/95_test_vectors.md S5, Q7). -/
def Obligations.CallThenRetReturns : Prop :=
  ∀ (s t u v : State) (a b : Byte), a.toNat < 8 → 1 ≤ s.x[7].toNat → Memory.wf s.mem = true → s.Fetches 0x50 a b →
    step s = .next t → u.x[7] = t.x[7] → u.byteAt t.x[7].toNat = t.byteAt t.x[7].toNat → exec .ret u = .next v →
    v.pc = s.pc + 2 ∧ v.x[7] = s.x[7] ∧ v.status = u.status

/-! ### The invariant -/

/-- The reset state meets the invariant. -/
def Obligations.ResetMeetsInvariant : Prop := State.reset.Inv

/-- Every step keeps the invariant, from every state that meets it: memory stays canonical, `fl` stays one of 0x00, 0x01, 0x02,
0x04, and a fault record has a datum its cause allows. -/
def Obligations.StepKeepsInvariant : Prop :=
  ∀ s t : State, s.Inv → step s = .next t → t.Inv

/-- The loader, `run` and reset keep the invariant. -/
def Obligations.EventsKeepInvariant : Prop :=
  ∀ s : State, s.Inv → s.run.Inv ∧ s.resetEvent.Inv ∧ ∀ (p : List Byte) (t : State), s.load p = .next t → t.Inv

/-! ### Reset, loading and the start of a run -/

/-- Reset, from any state, leaves every cell 0, `x[0]` to `x[6]` 0, `x[7]` 0xF3, `pc` 0, `fl` 0, no output, and `status`
`Idle` (the spec's decision D9). -/
def Obligations.ResetValues : Prop :=
  ∀ s : State, (∀ a, s.resetEvent.byteAt a = 0) ∧ (∀ j : Fin 8, j.val < 7 → s.resetEvent.reg j = 0) ∧
    s.resetEvent.x[7] = 0xF3 ∧ s.resetEvent.pc = 0 ∧ s.resetEvent.fl = 0 ∧ s.resetEvent.status = .idle ∧
    s.resetEvent.out = [] ∧ s.resetEvent = State.reset

/-- The loader, while `Idle`, puts a program of at most 256 bytes at address 0 and up, leaves every cell after it as it was,
and touches nothing else (the spec's decision D14). -/
def Obligations.LoaderWritesProgramFromZero : Prop :=
  ∀ (p : List Byte) (s : State), s.status = .idle → p.length ≤ 256 → Memory.wf s.mem = true →
    ∃ t, s.load p = .next t ∧ (∀ a, t.byteAt a = if a < p.length then p.getD a 0 else s.byteAt a) ∧
      t.x = s.x ∧ t.pc = s.pc ∧ t.fl = s.fl ∧ t.status = s.status ∧ t.out = s.out

/-- The launch state is fixed by the program bytes alone (spec/70_reset_and_hazards.md section 3). -/
def Obligations.LaunchStateIsTheProgram : Prop :=
  ∀ p : List Byte, p.length ≤ 256 → ∃ t, State.launch p = .next t ∧ (∀ a, t.byteAt a = p.getD a 0) ∧
    (∀ j : Fin 8, j.val < 7 → t.reg j = 0) ∧ t.x[7] = 0xF3 ∧ t.pc = 0 ∧ t.fl = 0 ∧ t.out = [] ∧ t.status = .running

/-- `run` moves `Idle` to `Running` and changes nothing else, and has no effect in any other status (the spec's decision
D21). -/
def Obligations.RunStartsAnIdleMachine : Prop :=
  ∀ s : State, (s.status = .idle → s.run = { s with status := .running }) ∧ (s.status ≠ .idle → s.run = s)

/-- An instruction placed by `withFetchWord` is the one the very next step runs (the model's own operation,
notes/assumptions/1.md). -/
def Obligations.PlacedWordRunsNext : Prop :=
  ∀ (s : State) (nbits w : Nat) (i : Instr), Memory.wf s.mem = true → decodeTableWord nbits w = some i →
    ∃ t, exec i (s.withFetchWord nbits w) = .next t ∧ step (s.withFetchWord nbits w) = .next (advance i.opcode t)

/-! ### Runs -/

/-- The run loop of spec/40_dispatch_cycle.md section 3 is the step, iterated: the loop's own test of `status` and the step's
stay in agreement. -/
def Obligations.RunLoopIsIteratedStep : Prop :=
  ∀ (fuel : Nat) (s : State), runLoop fuel s = Host.Core.run Sys2Proof.core fuel s

/-- Fuel only says how far a run is followed: a run is cut anywhere and goes on from there, and more fuel changes nothing
once it has ended. -/
def Obligations.FuelOnlyExtendsARun : Prop :=
  ∀ (m n : Nat) (s t : State), runLoop m s = .next t →
    runLoop (m + n) s = runLoop n t ∧ (t.status ≠ .running → runLoop (m + n) s = .next t)

/-- The fates of a run (spec/40_dispatch_cycle.md section 3): from every running state, a launch state among them, exactly one
of `Halted`, `Faulted` with one cause and datum, or running for ever. Telling `Faulted` from `Halted` is the spec's decision
D9. -/
def Obligations.RunHasExactlyOneFate : Prop :=
  ∀ s : State, s.status = .running →
    (EndsHalted s ∨ (∃ r, EndsFaulted r s) ∨ NeverEnds s) ∧
    ¬(EndsHalted s ∧ ∃ r, EndsFaulted r s) ∧ ¬(EndsHalted s ∧ NeverEnds s) ∧ ¬((∃ r, EndsFaulted r s) ∧ NeverEnds s) ∧
    (∀ r q : Fault, EndsFaulted r s → EndsFaulted q s → r = q)

/-- The halting property (spec/95_test_vectors.md S1): a run reaches `Halted` if and only if it executes a HLT. -/
def Obligations.RunHaltsIffHltIsExecuted : Prop :=
  ∀ s : State, s.status = .running → (EndsHalted s ↔ ExecutesHlt s)

/-- The executor, under any fuel, answers a state of the program's one run from its launch state, which is running; the
answer is never `Idle`. A program of at most 256 bytes is the spec's decision D14. -/
def Obligations.ExecutorFollowsTheLaunchedRun : Prop :=
  ∀ p : List Byte, p.length ≤ 256 → ∃ s, State.launch p = .next s ∧ s.status = .running ∧
    ∀ fuel : Nat, ∃ t, execute fuel p = .next t ∧ runLoop fuel s = .next t ∧ t.status ≠ .idle
end

