-- ==== Sys2Proof/Laws/State.lean ====
section
/-! SUPPORT. What each update of a state leaves in each field, one lemma per field per update, and the register file's
read-after-write laws. -/

namespace Sys2Proof.Machine

open Sys2Proof

variable (s : State)

@[simp] theorem State.setReg_mem (a : Fin 8) (v : Byte) : (s.setReg a v).mem = s.mem := rfl
@[simp] theorem State.setReg_x (a : Fin 8) (v : Byte) : (s.setReg a v).x = s.x.set a.val v a.isLt := rfl
@[simp] theorem State.setReg_pc (a : Fin 8) (v : Byte) : (s.setReg a v).pc = s.pc := rfl
@[simp] theorem State.setReg_fl (a : Fin 8) (v : Byte) : (s.setReg a v).fl = s.fl := rfl
@[simp] theorem State.setReg_status (a : Fin 8) (v : Byte) : (s.setReg a v).status = s.status := rfl
@[simp] theorem State.setReg_out (a : Fin 8) (v : Byte) : (s.setReg a v).out = s.out := rfl

@[simp] theorem State.setPc_mem (v : Byte) : (s.setPc v).mem = s.mem := rfl
@[simp] theorem State.setPc_x (v : Byte) : (s.setPc v).x = s.x := rfl
@[simp] theorem State.setPc_pc (v : Byte) : (s.setPc v).pc = v := rfl
@[simp] theorem State.setPc_fl (v : Byte) : (s.setPc v).fl = s.fl := rfl
@[simp] theorem State.setPc_status (v : Byte) : (s.setPc v).status = s.status := rfl
@[simp] theorem State.setPc_out (v : Byte) : (s.setPc v).out = s.out := rfl

@[simp] theorem State.setFl_mem (v : Byte) : (s.setFl v).mem = s.mem := rfl
@[simp] theorem State.setFl_x (v : Byte) : (s.setFl v).x = s.x := rfl
@[simp] theorem State.setFl_pc (v : Byte) : (s.setFl v).pc = s.pc := rfl
@[simp] theorem State.setFl_fl (v : Byte) : (s.setFl v).fl = v := rfl
@[simp] theorem State.setFl_status (v : Byte) : (s.setFl v).status = s.status := rfl
@[simp] theorem State.setFl_out (v : Byte) : (s.setFl v).out = s.out := rfl

@[simp] theorem State.setStatus_mem (v : Status) : (s.setStatus v).mem = s.mem := rfl
@[simp] theorem State.setStatus_x (v : Status) : (s.setStatus v).x = s.x := rfl
@[simp] theorem State.setStatus_pc (v : Status) : (s.setStatus v).pc = s.pc := rfl
@[simp] theorem State.setStatus_fl (v : Status) : (s.setStatus v).fl = s.fl := rfl
@[simp] theorem State.setStatus_status (v : Status) : (s.setStatus v).status = v := rfl
@[simp] theorem State.setStatus_out (v : Status) : (s.setStatus v).out = s.out := rfl

@[simp] theorem State.emit_mem (v : Byte) : (s.emit v).mem = s.mem := rfl
@[simp] theorem State.emit_x (v : Byte) : (s.emit v).x = s.x := rfl
@[simp] theorem State.emit_pc (v : Byte) : (s.emit v).pc = s.pc := rfl
@[simp] theorem State.emit_fl (v : Byte) : (s.emit v).fl = s.fl := rfl
@[simp] theorem State.emit_status (v : Byte) : (s.emit v).status = s.status := rfl
@[simp] theorem State.emit_out (v : Byte) : (s.emit v).out = s.out ++ [v] := rfl

@[simp] theorem State.raise_mem (r : Fault) : (s.raise r).mem = s.mem := rfl
@[simp] theorem State.raise_x (r : Fault) : (s.raise r).x = s.x := rfl
@[simp] theorem State.raise_pc (r : Fault) : (s.raise r).pc = s.pc := rfl
@[simp] theorem State.raise_fl (r : Fault) : (s.raise r).fl = s.fl := rfl
@[simp] theorem State.raise_status (r : Fault) : (s.raise r).status = .faulted r := rfl
@[simp] theorem State.raise_out (r : Fault) : (s.raise r).out = s.out := rfl

/-- A register reads back what was written to it (spec/10_state.md R23). -/
@[simp] theorem State.reg_setReg_self (a : Fin 8) (v : Byte) : (s.setReg a v).reg a = v := by
  simp [State.reg]

/-- A register write leaves every other register alone. -/
theorem State.reg_setReg_other (a b : Fin 8) (v : Byte) (h : b ≠ a) : (s.setReg a v).reg b = s.reg b := by
  have hne : a.val ≠ b.val := fun e => h (Fin.ext e.symm)
  simp [State.reg, Vector.getElem_set_ne _ _ hne]

/-- The stack pointer is register 7 (spec/10_state.md R24). -/
theorem State.sp_eq : s.sp = s.x[7] := rfl

@[simp] theorem State.sp_setReg_spIndex (v : Byte) : (s.setReg Config.spIndex v).sp = v :=
  State.reg_setReg_self s Config.spIndex v

@[simp] theorem State.reg_setPc (v : Byte) (a : Fin 8) : (s.setPc v).reg a = s.reg a := rfl
@[simp] theorem State.reg_setFl (v : Byte) (a : Fin 8) : (s.setFl v).reg a = s.reg a := rfl
@[simp] theorem State.reg_setStatus (v : Status) (a : Fin 8) : (s.setStatus v).reg a = s.reg a := rfl
@[simp] theorem State.reg_emit (v : Byte) (a : Fin 8) : (s.emit v).reg a = s.reg a := rfl
@[simp] theorem State.reg_raise (r : Fault) (a : Fin 8) : (s.raise r).reg a = s.reg a := rfl

@[simp] theorem State.byteAt_setReg (a : Fin 8) (v : Byte) (n : Nat) : (s.setReg a v).byteAt n = s.byteAt n := rfl
@[simp] theorem State.byteAt_setPc (v : Byte) (n : Nat) : (s.setPc v).byteAt n = s.byteAt n := rfl
@[simp] theorem State.byteAt_setFl (v : Byte) (n : Nat) : (s.setFl v).byteAt n = s.byteAt n := rfl
@[simp] theorem State.byteAt_setStatus (v : Status) (n : Nat) : (s.setStatus v).byteAt n = s.byteAt n := rfl
@[simp] theorem State.byteAt_emit (v : Byte) (n : Nat) : (s.emit v).byteAt n = s.byteAt n := rfl
@[simp] theorem State.byteAt_raise (r : Fault) (n : Nat) : (s.raise r).byteAt n = s.byteAt n := rfl

end Sys2Proof.Machine
end

