-- ==== Sys2Proof/Laws/Memory.lean ====
section
/-! SUPPORT. The memory array: a write is read back, leaves every other cell alone, and keeps the canonical form
(spec/20_memory.md R50, R51, R57). -/

namespace Sys2Proof.Machine

open Sys2Proof

/-- A canonical tail starting above an address says nothing of it. -/
theorem Memory.read_below : ∀ (m : Memory) (lo a : Nat), Memory.wfFrom lo m = true → a < lo →
    Memory.read m a = unlistedByte
  | [], _, _, _, _ => rfl
  | (k, w) :: rest, lo, a, h, hlt => by
    simp only [Memory.wfFrom, Bool.and_eq_true, decide_eq_true_eq] at h
    obtain ⟨⟨⟨hlo, _⟩, _⟩, hrest⟩ := h
    have hne : k ≠ a := by omega
    simp only [Memory.read, if_neg hne]
    exact Memory.read_below rest (k + 1) a hrest (by omega)

/-- A canonical list stays canonical from any lower address. -/
theorem Memory.wfFrom_mono : ∀ (m : Memory) (lo lo' : Nat), Memory.wfFrom lo m = true → lo' ≤ lo →
    Memory.wfFrom lo' m = true
  | [], _, _, _, _ => rfl
  | (k, w) :: rest, lo, lo', h, hle => by
    simp only [Memory.wfFrom, Bool.and_eq_true, decide_eq_true_eq] at h ⊢
    obtain ⟨⟨⟨hlo, hk⟩, hw⟩, hrest⟩ := h
    exact ⟨⟨⟨by omega, hk⟩, hw⟩, hrest⟩

/-- An entry is read back; in front of a tail that starts above it. -/
theorem Memory.read_entry_self (a : Nat) (v : Byte) (rest : Memory) (h : Memory.wfFrom (a + 1) rest = true) :
    Memory.read (Memory.entry a v rest) a = v := by
  unfold Memory.entry
  split
  · rename_i hv
    rw [hv]
    exact Memory.read_below rest (a + 1) a h (by omega)
  · simp [Memory.read]

/-- An entry leaves other addresses to the tail. -/
theorem Memory.read_entry_other (a b : Nat) (v : Byte) (rest : Memory) (h : b ≠ a) :
    Memory.read (Memory.entry a v rest) b = Memory.read rest b := by
  unfold Memory.entry
  split
  · rfl
  · simp [Memory.read, Ne.symm h]

/-- An entry in front of a canonical tail above it is canonical. -/
theorem Memory.wfFrom_entry (a lo : Nat) (v : Byte) (rest : Memory) (hlo : lo ≤ a) (ha : a < Config.memSize)
    (h : Memory.wfFrom (a + 1) rest = true) : Memory.wfFrom lo (Memory.entry a v rest) = true := by
  unfold Memory.entry
  split
  · exact Memory.wfFrom_mono rest (a + 1) lo h (by omega)
  · rename_i hv
    simp [Memory.wfFrom, hlo, ha, hv, h]

/-- A write leaves every other address alone, canonical or not. -/
theorem Memory.read_write_other : ∀ (m : Memory) (a b : Nat) (v : Byte), b ≠ a →
    Memory.read (Memory.write m a v) b = Memory.read m b
  | [], a, b, v, h => by
    simp only [Memory.write]
    exact Memory.read_entry_other a b v [] h
  | (k, w) :: rest, a, b, v, h => by
    unfold Memory.write
    split
    · exact Memory.read_entry_other a b v _ h
    · split
      · rename_i _ hak
        rw [Memory.read_entry_other a b v rest h]
        simp [Memory.read, show k ≠ b by omega]
      · simp only [Memory.read]
        rw [Memory.read_write_other rest a b v h]

/-- A write keeps the canonical form from any address at or below it. -/
theorem Memory.wfFrom_write : ∀ (m : Memory) (a lo : Nat) (v : Byte), Memory.wfFrom lo m = true → lo ≤ a →
    a < Config.memSize → Memory.wfFrom lo (Memory.write m a v) = true
  | [], a, lo, v, _, hlo, ha => by
    simp only [Memory.write]
    exact Memory.wfFrom_entry a lo v [] hlo ha rfl
  | (k, w) :: rest, a, lo, v, h, hlo, ha => by
    simp only [Memory.wfFrom, Bool.and_eq_true, decide_eq_true_eq] at h
    obtain ⟨⟨⟨hk1, hk2⟩, hw⟩, hrest⟩ := h
    unfold Memory.write
    split
    · refine Memory.wfFrom_entry a lo v _ hlo ha ?_
      simp only [Memory.wfFrom, Bool.and_eq_true, decide_eq_true_eq]
      exact ⟨⟨⟨by omega, hk2⟩, hw⟩, hrest⟩
    · split
      · rename_i _ hak
        subst hak
        exact Memory.wfFrom_entry a lo v rest hlo ha hrest
      · have hw' := Memory.wfFrom_write rest a (k + 1) v hrest (by omega) ha
        simp only [Memory.wfFrom, Bool.and_eq_true, decide_eq_true_eq]
        exact ⟨⟨⟨hk1, hk2⟩, hw⟩, hw'⟩

/-- A write to a canonical memory is read back. -/
theorem Memory.read_write_self_from : ∀ (m : Memory) (a lo : Nat) (v : Byte), Memory.wfFrom lo m = true →
    Memory.read (Memory.write m a v) a = v
  | [], a, _, v, _ => by
    simp only [Memory.write]
    exact Memory.read_entry_self a v [] rfl
  | (k, w) :: rest, a, lo, v, h => by
    simp only [Memory.wfFrom, Bool.and_eq_true, decide_eq_true_eq] at h
    obtain ⟨⟨⟨hk1, hk2⟩, hw⟩, hrest⟩ := h
    unfold Memory.write
    split
    · refine Memory.read_entry_self a v _ ?_
      simp only [Memory.wfFrom, Bool.and_eq_true, decide_eq_true_eq]
      exact ⟨⟨⟨by omega, hk2⟩, hw⟩, hrest⟩
    · split
      · rename_i _ hak
        subst hak
        exact Memory.read_entry_self a v rest hrest
      · rename_i _ hak
        simp only [Memory.read, if_neg (Ne.symm hak)]
        exact Memory.read_write_self_from rest a (k + 1) v hrest

theorem Memory.read_write_self (m : Memory) (a : Nat) (v : Byte) (h : Memory.wf m = true) :
    Memory.read (Memory.write m a v) a = v :=
  Memory.read_write_self_from m a 0 v h

/-- A write inside the address space keeps the canonical form. -/
theorem Memory.wf_write (m : Memory) (a : Nat) (v : Byte) (h : Memory.wf m = true) (ha : a < Config.memSize) :
    Memory.wf (Memory.write m a v) = true :=
  Memory.wfFrom_write m a 0 v h (by omega) ha

/-- The reset memory is canonical. -/
theorem State.reset_mem_wf : Memory.wf State.reset.mem = true := rfl

/-- Placing a word inside the address space keeps the canonical form. -/
theorem placeWord_wf (m : Memory) (base w : Nat) (h : Memory.wf m = true) (hb : base + 2 < Config.memSize) :
    Memory.wf (placeWord m base w) = true := by
  unfold placeWord
  exact Memory.wf_write _ _ _ (Memory.wf_write _ _ _ (Memory.wf_write _ _ _ h (by omega)) (by omega)) hb

end Sys2Proof.Machine
end

