-- ==== Sys2Proof/Laws/Ops.lean ====
section
/-! SUPPORT. For each shared operation, one lemma that says everything it can do. Proofs about instructions and cycles cite
these and do not unfold the operations. -/

namespace Sys2Proof.Machine

open Sys2Proof

/-- Bounds, as an inequality (spec/20_memory.md R52). -/
@[simp] theorem inBounds_iff (n : Int) : inBounds n = true ↔ 0 ≤ n ∧ n < 256 := by
  cases n with
  | ofNat k =>
    show decide (k < 256) = true ↔ _
    rw [decide_eq_true_eq]
    show k < 256 ↔ 0 ≤ (k : Int) ∧ (k : Int) < 256
    omega
  | negSucc k =>
    show false = true ↔ _
    have := Int.negSucc_lt_zero k
    constructor
    · intro h; cases h
    · omega

/-- The accessor's read: the byte, or the bounds fault (R50). -/
theorem memRead_eq (addr : Int) (s : State) :
    memRead addr s =
      if 0 ≤ addr ∧ addr < 256 then .ok (s.byteAt addr.toNat) else .error (.outOfBoundsAddress addr) := by
  simp [memRead]

/-- A read inside the address space cannot fault. -/
theorem memRead_nat (s : State) {n : Nat} (h : n < 256) : memRead (n : Int) s = .ok (s.byteAt n) := by
  rw [memRead_eq, if_pos ⟨by omega, by omega⟩]
  rfl

/-- A read one past the top of memory faults (R52). -/
theorem memRead_top (s : State) {n : Nat} (h : n = 256) : memRead (n : Int) s = .error (.outOfBoundsAddress 256) := by
  subst h
  rw [memRead_eq, if_neg (by omega)]
  rfl

/-- A read at a byte's address cannot fault. -/
@[simp] theorem memRead_byte (b : Byte) (s : State) : memRead (b.toNat : Int) s = .ok (s.byteAt b.toNat) := by
  have hb : b.toNat < 256 := b.isLt
  rw [memRead_eq, if_pos ⟨by omega, by omega⟩]
  rfl

/-- The accessor's write: one cell, or the bounds fault (R51). -/
theorem memWrite_eq (addr : Int) (v : Nat) (s : State) :
    memWrite addr v s =
      if 0 ≤ addr ∧ addr < 256 then .ok { s with mem := Memory.write s.mem addr.toNat (BitVec.ofNat 8 v) }
      else .error (.outOfBoundsAddress addr) := by
  simp [memWrite, trunc8]

/-- A write at a byte's address cannot fault. -/
@[simp] theorem memWrite_byte (b : Byte) (v : Nat) (s : State) :
    memWrite (b.toNat : Int) v s = .ok { s with mem := Memory.write s.mem b.toNat (BitVec.ofNat 8 v) } := by
  have hb : b.toNat < 256 := b.isLt
  rw [memWrite_eq, if_pos ⟨by omega, by omega⟩]
  rfl

/-- A legal register operand is its index (spec/30_encoding.md R89). -/
theorem regIndex_ok {b : Byte} (h : b.toNat < 8) : regIndex b = .ok ⟨b.toNat, h⟩ := dif_pos h

/-- A register operand above 7 raises (R89, R195). -/
theorem regIndex_error {b : Byte} (h : ¬ b.toNat < 8) : regIndex b = .error (.invalidRegisterIndex b) := dif_neg h

/-- Two register operands, `opa` first (spec/42_alu.md R142). -/
theorem regIndex2_eq (a b : Byte) :
    regIndex2 a b =
      if ha : a.toNat < 8 then
        if hb : b.toNat < 8 then .ok (⟨a.toNat, ha⟩, ⟨b.toNat, hb⟩) else .error (.invalidRegisterIndex b)
      else .error (.invalidRegisterIndex a) := by
  unfold regIndex2
  by_cases ha : a.toNat < 8
  · by_cases hb : b.toNat < 8
    · rw [regIndex_ok ha, regIndex_ok hb, dif_pos ha, dif_pos hb]; rfl
    · rw [regIndex_ok ha, regIndex_error hb, dif_pos ha, dif_neg hb]; rfl
  · rw [regIndex_error ha, dif_neg ha]; rfl

/-- The pre-decrement: the stack pointer minus one, or the fault at 0 (spec/43_stack.md R164). -/
theorem spDecrement_eq (s : State) :
    spDecrement s =
      if s.sp.toNat = 0 then .error (.outOfBoundsAddress (-1)) else .ok (s.setReg Config.spIndex (s.sp - 1)) := by
  have hb : s.sp.toNat < 256 := s.sp.isLt
  unfold spDecrement moveSp pushAddress
  by_cases h : s.sp.toNat = 0
  · rw [if_pos h, if_neg (by rw [inBounds_iff]; omega), h]; rfl
  · rw [if_neg h, if_pos (by rw [inBounds_iff]; omega)]
    have e : trunc8 ((s.sp.toNat : Int) - 1).toNat = s.sp - 1 := by
      unfold trunc8
      bv_omega
    rw [e]

/-- The post-increment: the stack pointer plus one, or the fault at 255 (R164). -/
theorem spIncrement_eq (s : State) :
    spIncrement s =
      if s.sp.toNat = 255 then .error (.outOfBoundsAddress 256) else .ok (s.setReg Config.spIndex (s.sp + 1)) := by
  have hb : s.sp.toNat < 256 := s.sp.isLt
  unfold spIncrement moveSp popNext
  by_cases h : s.sp.toNat = 255
  · rw [if_pos h, if_neg (by rw [inBounds_iff]; omega), h]; rfl
  · rw [if_neg h, if_pos (by rw [inBounds_iff]; omega)]
    have e : trunc8 ((s.sp.toNat : Int) + 1).toNat = s.sp + 1 := by
      unfold trunc8
      bv_omega
    rw [e]

/-- The pre-decrement of a stack pointer above 0. -/
theorem spDecrement_ok {s : State} (h : s.sp.toNat ≠ 0) : spDecrement s = .ok (s.setReg Config.spIndex (s.sp - 1)) :=
  (spDecrement_eq s).trans (if_neg h)

/-- The pre-decrement of a stack pointer at 0. -/
theorem spDecrement_error {s : State} (h : s.sp.toNat = 0) : spDecrement s = .error (.outOfBoundsAddress (-1)) :=
  (spDecrement_eq s).trans (if_pos h)

/-- The post-increment of a stack pointer below 255. -/
theorem spIncrement_ok {s : State} (h : s.sp.toNat ≠ 255) : spIncrement s = .ok (s.setReg Config.spIndex (s.sp + 1)) :=
  (spIncrement_eq s).trans (if_neg h)

/-- The post-increment of a stack pointer at 255. -/
theorem spIncrement_error {s : State} (h : s.sp.toNat = 255) : spIncrement s = .error (.outOfBoundsAddress 256) :=
  (spIncrement_eq s).trans (if_pos h)

/-- A handler's sub-steps run one after another until one raises. -/
@[simp] theorem raising_bind_ok {α β : Type} (v : α) (f : α → Raising β) : ((.ok v : Raising α) >>= f) = f v := rfl

@[simp] theorem raising_bind_error {α β : Type} (r : Fault) (f : α → Raising β) :
    ((.error r : Raising α) >>= f) = .error r := rfl

@[simp] theorem raising_pure {α : Type} (v : α) : (pure v : Raising α) = .ok v := rfl

/-- A settled handler always answers a next state (spec/60_exceptions.md R199). -/
@[simp] theorem settle_ok (s t : State) : settle s (.ok t) = .next t := rfl

@[simp] theorem settle_error (s : State) (r : Fault) : settle s (.error r) = .next (s.raise r) := rfl

theorem settle_next (s : State) (r : Raising State) : ∃ t, settle s r = .next t := by
  cases r with
  | ok t => exact ⟨t, rfl⟩
  | error r => exact ⟨s.raise r, rfl⟩

/-- The fetch: the three bytes, or the bounds fault at 254 and 255 (spec/40_dispatch_cycle.md R111, R112). -/
theorem fetch_eq (s : State) :
    fetch s =
      if s.pc.toNat ≤ 253 then
        .ok ⟨s.byteAt s.pc.toNat, s.byteAt (s.pc.toNat + 1), s.byteAt (s.pc.toNat + 2)⟩
      else .error (.outOfBoundsAddress 256) := by
  have hb : s.pc.toNat < 256 := s.pc.isLt
  unfold fetch
  rw [memRead_byte]
  by_cases h : s.pc.toNat ≤ 253
  · have e1 := memRead_nat s (show s.pc.toNat + 1 < 256 by omega)
    have e2 := memRead_nat s (show s.pc.toNat + 2 < 256 by omega)
    push_cast at e1 e2
    rw [e1, e2, if_pos h]; rfl
  · rw [if_neg h]
    by_cases h255 : s.pc.toNat = 255
    · have e1 := memRead_top s (show s.pc.toNat + 1 = 256 by omega)
      push_cast at e1
      rw [e1]; rfl
    · have e1 := memRead_nat s (show s.pc.toNat + 1 < 256 by omega)
      have e2 := memRead_top s (show s.pc.toNat + 2 = 256 by omega)
      push_cast at e1 e2
      rw [e1, e2]; rfl

/-- The advance: nothing after a raise or a `sets_pc` opcode, else the sum, or the fault at 256 (R117, R118, R119). -/
theorem advance_eq (ir : Byte) (s : State) :
    advance ir s =
      if s.status.isFaulted = true ∨ opcodeSetsPc ir = true then s
      else if s.pc.toNat + opcodeLength ir ≤ 255 then s.setPc (BitVec.ofNat 8 (s.pc.toNat + opcodeLength ir))
      else s.raise (.outOfBoundsAddress (s.pc.toNat + opcodeLength ir : Nat)) := by
  unfold advance
  by_cases h1 : s.status.isFaulted = true
  · rw [if_pos h1, if_pos (Or.inl h1)]
  · by_cases h2 : opcodeSetsPc ir = true
    · rw [if_neg h1, if_pos h2, if_pos (Or.inr h2)]
    · rw [if_neg h1, if_neg h2, if_neg (show ¬(_ ∨ _) from fun h => h.elim h1 h2)]
      unfold advanceTarget
      by_cases h3 : s.pc.toNat + opcodeLength ir ≤ 255
      · rw [if_pos h3, if_pos (by rw [inBounds_iff]; omega)]; rfl
      · rw [if_neg h3, if_neg (by rw [inBounds_iff]; omega)]; rfl

/-- While running, a step is a cycle. -/
theorem step_running {s : State} (h : s.status = .running) : step s = cycle s := by
  unfold step; rw [h]

/-- A cycle whose fetch faults takes that fault. -/
theorem cycle_of_fetch_error {s : State} {r : Fault} (h : fetch s = .error r) : cycle s = .next (s.raise r) := by
  unfold cycle; rw [h]

/-- A cycle with an opcode byte that the map does not have takes the decode fault (R115). -/
theorem cycle_of_decode_error {s : State} {l : Latches} {e : DecodeError} (hf : fetch s = .ok l)
    (hd : decode l.ir l.opa l.opb = .error e) : cycle s = .next (s.raise (.unrecognizedOpcode l.ir)) := by
  unfold cycle dispatch; rw [hf]; simp only [hd]

/-- A cycle that decodes an instruction runs its handler and then the advance (R121). -/
theorem cycle_of_decode {s : State} {l : Latches} {i : Instr} (hf : fetch s = .ok l)
    (hd : decode l.ir l.opa l.opb = .ok i) : cycle s = finishCycle l.ir (exec i s) := by
  unfold cycle dispatch; rw [hf]; simp only [hd]

@[simp] theorem finishCycle_next (ir : Byte) (t : State) : finishCycle ir (.next t) = .next (advance ir t) := rfl

/-- The loader keeps everything but memory, and canonical memory canonical (spec/70_reset_and_hazards.md R233). -/
theorem loadFrom_ok : ∀ (p : List Byte) (addr : Int) (s t : State), loadFrom addr p s = .ok t →
    Memory.wf s.mem = true →
    Memory.wf t.mem = true ∧ t.x = s.x ∧ t.pc = s.pc ∧ t.fl = s.fl ∧ t.status = s.status ∧ t.out = s.out
  | [], _, s, t, h, hw => by
    cases h
    exact ⟨hw, rfl, rfl, rfl, rfl, rfl⟩
  | b :: rest, addr, s, t, h, hw => by
    unfold loadFrom at h
    rw [memWrite_eq] at h
    by_cases hb : 0 ≤ addr ∧ addr < 256
    · rw [if_pos hb] at h
      have ha : addr.toNat < Config.memSize := by unfold Config.memSize; omega
      exact loadFrom_ok rest (addr + 1) { s with mem := Memory.write s.mem addr.toNat (BitVec.ofNat 8 b.toNat) } t h
        (Memory.wf_write _ _ _ hw ha)
    · rw [if_neg hb] at h
      cases h

end Sys2Proof.Machine
end

