-- ==== Sys2Proof/Laws/PerInstr.lean ====
section
/-! SUPPORT. The family "Encoding": for each instruction, its opcode byte's length and advance bits against the length and
program-counter column of spec/10_state.md R27 and spec/30_encoding.md R86. -/

namespace Sys2Proof.Laws.Encoding

open Sys2Proof

/-- The length column of R27 and R85. -/
def tableLength : Instr → Nat
  | .hlt => 1
  | .ldi _ _ => 3
  | .prn _ => 2
  | .mul _ _ => 3
  | .add _ _ => 3
  | .cmp _ _ => 3
  | .push _ => 2
  | .pop _ => 2
  | .call _ => 2
  | .ret => 1
  | .jmp _ => 2

/-- The `sets_pc` column of R27. -/
def tableSetsPc : Instr → Bool
  | .hlt => false
  | .ldi _ _ => false
  | .prn _ => false
  | .mul _ _ => false
  | .add _ _ => false
  | .cmp _ _ => false
  | .push _ => false
  | .pop _ => false
  | .call _ => true
  | .ret => true
  | .jmp _ => true

/-- The instruction occupies the bytes its opcode's length field says, and its opcode byte's fields agree with the table. -/
def Statement (i : Instr) : Prop :=
  (encode i).length = tableLength i ∧ opcodeLength i.opcode = tableLength i ∧ opcodeSetsPc i.opcode = tableSetsPc i

theorem hlt : Statement .hlt := ⟨rfl, by decide, by decide⟩
theorem ldi (a b : Byte) : Statement (.ldi a b) := ⟨rfl, by show opcodeLength 0x82 = 3; decide, by show opcodeSetsPc 0x82 = false; decide⟩
theorem prn (a : Byte) : Statement (.prn a) := ⟨rfl, by show opcodeLength 0x47 = 2; decide, by show opcodeSetsPc 0x47 = false; decide⟩
theorem mul (a b : Byte) : Statement (.mul a b) := ⟨rfl, by show opcodeLength 0xA2 = 3; decide, by show opcodeSetsPc 0xA2 = false; decide⟩
theorem add (a b : Byte) : Statement (.add a b) := ⟨rfl, by show opcodeLength 0xA0 = 3; decide, by show opcodeSetsPc 0xA0 = false; decide⟩
theorem cmp (a b : Byte) : Statement (.cmp a b) := ⟨rfl, by show opcodeLength 0xA7 = 3; decide, by show opcodeSetsPc 0xA7 = false; decide⟩
theorem push (a : Byte) : Statement (.push a) := ⟨rfl, by show opcodeLength 0x45 = 2; decide, by show opcodeSetsPc 0x45 = false; decide⟩
theorem pop (a : Byte) : Statement (.pop a) := ⟨rfl, by show opcodeLength 0x46 = 2; decide, by show opcodeSetsPc 0x46 = false; decide⟩
theorem call (a : Byte) : Statement (.call a) := ⟨rfl, by show opcodeLength 0x50 = 2; decide, by show opcodeSetsPc 0x50 = true; decide⟩
theorem ret : Statement .ret := ⟨rfl, by decide, by decide⟩
theorem jmp (a : Byte) : Statement (.jmp a) := ⟨rfl, by show opcodeLength 0x54 = 2; decide, by show opcodeSetsPc 0x54 = true; decide⟩

end Sys2Proof.Laws.Encoding
end

