-- ==== Sys2Proof/Laws/Run.lean ====
section
/-! SUPPORT. The run loop one cycle at a time. Proofs about runs cite these and do not unfold the loop. -/

namespace Sys2Proof.Machine

open Sys2Proof

@[simp] theorem runLoop_zero (s : State) : runLoop 0 s = .next s := rfl

/-- Outside `Running` a step leaves the state (spec/40_dispatch_cycle.md R110). -/
theorem step_ended {s : State} (h : s.status ≠ .running) : step s = .next s := by
  unfold step
  split
  · exact absurd ‹_› h
  all_goals rfl

/-- Outside `Running` the loop is over, whatever the fuel (R120). -/
theorem runLoop_ended {s : State} (h : s.status ≠ .running) : ∀ fuel : Nat, runLoop fuel s = .next s
  | 0 => rfl
  | fuel + 1 => by
    unfold runLoop
    split
    · exact absurd ‹_› h
    all_goals rfl

/-- One unit of fuel is one step, and the rest of the fuel goes on from there. -/
theorem runLoop_succ {s t : State} (h : step s = .next t) (fuel : Nat) : runLoop (fuel + 1) s = runLoop fuel t := by
  by_cases hr : s.status = .running
  · rw [step_running hr] at h
    rw [runLoop, hr]
    simp only [h]
  · rw [step_ended hr] at h
    cases h
    rw [runLoop_ended hr, runLoop_ended hr]

/-- The same of the host's iteration, for any machine. -/
theorem core_run_succ {M : Host.Core} {s t : M.State} (h : M.step s = .next t) (k : Nat) : M.run (k + 1) s = M.run k t := by
  rw [Host.Core.run, h]

end Sys2Proof.Machine
end

