-- ==== Sys2Proof/Tests/Slice0.lean ====
section
/-! SUPPORT. The model's own tests and the witnesses of its statements' hypotheses. Every expected value is from the spec: the
encodings of spec/30_encoding.md R85 and R97 written out bit by bit, and the vectors of spec/95_test_vectors.md section 2, named
by their id in the test's docstring. -/

namespace Sys2Proof.Tests

open Sys2Proof Sys2Proof.Machine

/-! ### Helpers -/

/-- The bytes at successive addresses. -/
def putBytes : Nat → List Byte → Memory → Memory
  | _, [], m => m
  | a, b :: rest, m => putBytes (a + 1) rest (Memory.write m a b)

/-- The launch state with the bytes at `pc` instead of 0. -/
def at_ (pc : Byte) (code : List Byte) : State :=
  { State.reset with mem := putBytes pc.toNat code [], pc := pc, status := .running }

/-- One more cell. -/
def cell (a : Nat) (v : Byte) (s : State) : State := { s with mem := Memory.write s.mem a v }

/-- A property of the next state. -/
def check (o : Outcome) (p : State → Bool) : Bool :=
  match o with
  | .next t => p t
  | .fault _ => false
  | .refused _ => false

/-- A checked outcome is a next state with the property. -/
theorem exists_next {o : Outcome} {p : State → Bool} (h : check o p = true) : ∃ t, o = .next t ∧ p t = true := by
  cases o with
  | next t => exact ⟨t, rfl, h⟩
  | fault r => cases h
  | refused r => cases h

/-! ### Decoding: each word written out from the spec's encoding -/

theorem test_decode_hlt : decodeTableWord 8 0b00000001 = some .hlt := by decide
theorem test_decode_ldi : decodeTableWord 24 0b11111110_00000011_10000010 = some (.ldi 3 254) := by decide
theorem test_decode_prn : decodeTableWord 16 0b00000101_01000111 = some (.prn 5) := by decide
theorem test_decode_mul : decodeTableWord 24 0b00000010_00000001_10100010 = some (.mul 1 2) := by decide
theorem test_decode_add : decodeTableWord 24 0b00000010_00000001_10100000 = some (.add 1 2) := by decide
theorem test_decode_cmp : decodeTableWord 24 0b00000010_00000001_10100111 = some (.cmp 1 2) := by decide
theorem test_decode_push : decodeTableWord 16 0b00000110_01000101 = some (.push 6) := by decide
theorem test_decode_pop : decodeTableWord 16 0b00000110_01000110 = some (.pop 6) := by decide
theorem test_decode_call : decodeTableWord 16 0b00000001_01010000 = some (.call 1) := by decide
theorem test_decode_ret : decodeTableWord 8 0b00010001 = some .ret := by decide
theorem test_decode_jmp : decodeTableWord 16 0b11001000_01010100 = some (.jmp 200) := by decide

/-- Vectors I1 to I4: these bytes are no opcode. -/
theorem test_decode_illegal :
    ∀ w ∈ [0x00, 0xA1, 0x55, 0xC0, 0xFF], decodeTableWord 8 w = none := by decide

/-- R88: 245 of the 256 opcode bytes are illegal, so 11 are legal. -/
theorem test_legal_count :
    ((List.finRange 256).countP fun w => (opcodeMap.map Prod.fst).contains (BitVec.ofFin w)) = 11 := by decide +kernel

/-- No two rows of the opcode map share a byte. -/
theorem test_opcode_map_pairwise : (opcodeMap.map Prod.fst).Pairwise (· ≠ ·) := by decide

/-- Vectors E1 to E11, the fields `nops`, `alu`, `sets_pc`, `id`. -/
theorem test_opcode_fields :
    ∀ r ∈ [((0x01 : Byte), 0, false, false, 1), (0x82, 2, false, false, 2), (0x47, 1, false, false, 7),
        (0xA2, 2, true, false, 2), (0xA0, 2, true, false, 0), (0xA7, 2, true, false, 7), (0x45, 1, false, false, 5),
        (0x46, 1, false, false, 6), (0x50, 1, false, true, 0), (0x11, 0, false, true, 1), (0x54, 1, false, true, 4)],
      (opcodeNops r.1, opcodeAluMarker r.1, opcodeSetsPc r.1, opcodeId r.1) = r.2 := by decide

/-- A list of bytes that ends inside an instruction, or has none, is rejected by name. -/
theorem test_decode_bytes_rejects :
    (match decodeBytes [0x82, 0x00] with | .error e => e == .truncated 0x82 | .ok _ => false) = true ∧
    (match decodeBytes [] with | .error e => e == .noBytes | .ok _ => false) = true := by decide

/-- R191's code column. -/
theorem test_fault_codes :
    [Fault.unrecognizedOpcode 0, .unsupportedAluOperation (.other 0), .outOfBoundsAddress 256, .invalidRegisterIndex 8].map
      Fault.code = [1, 2, 3, 4] := by decide

/-! ### WellFormed refuses each ill-formed operand -/

theorem test_ill_formed_ldi : (Instr.ldi 8 0).wellFormed = false := by decide
theorem test_ill_formed_prn : (Instr.prn 200).wellFormed = false := by decide
theorem test_ill_formed_mul : (Instr.mul 8 0).wellFormed = false ∧ (Instr.mul 0 8).wellFormed = false := by decide
theorem test_ill_formed_add : (Instr.add 8 0).wellFormed = false ∧ (Instr.add 0 8).wellFormed = false := by decide
theorem test_ill_formed_cmp : (Instr.cmp 8 0).wellFormed = false ∧ (Instr.cmp 0 8).wellFormed = false := by decide
theorem test_ill_formed_push : (Instr.push 8).wellFormed = false := by decide
theorem test_ill_formed_pop : (Instr.pop 8).wellFormed = false := by decide
theorem test_ill_formed_call : (Instr.call 255).wellFormed = false := by decide
/-- An immediate and JMP's ignored byte are not register indices. -/
theorem test_well_formed_unchecked : (Instr.ldi 7 255).wellFormed = true ∧ (Instr.jmp 200).wellFormed = true := by decide

/-! ### One step of each instruction -/

/-- Vector H2: HLT at 253 halts and advances. -/
theorem test_hlt : check (step (at_ 253 [0x01])) (fun t => t.status == .halted && t.pc == 254) = true := by decide
/-- Vector H3: HLT at 254 faults in the fetch. -/
theorem test_hlt_at_254 :
    check (step (at_ 254 [0x01])) (fun t => t.status == .faulted (.outOfBoundsAddress 256) && t.pc == 254) = true := by
  decide
/-- Vector L3: the stack pointer is an ordinary destination. -/
theorem test_ldi_sp : check (step (at_ 0 [0x82, 7, 0x80])) (fun t => t.sp == 0x80 && t.pc == 3) = true := by decide
/-- Vector L6: at 253 the write stands and the advance faults. -/
theorem test_ldi_at_253 :
    check (step (at_ 253 [0x82, 1, 7]))
      (fun t => t.reg 1 == 7 && t.status == .faulted (.outOfBoundsAddress 256) && t.pc == 253) = true := by decide
/-- Vector N2: the stack pointer is emitted as 243. -/
theorem test_prn_sp : check (step (at_ 0 [0x47, 7])) (fun t => t.out == [243] && t.pc == 2) = true := by decide
/-- Vector N3: an index above 7 faults and emits nothing. -/
theorem test_prn_index :
    check (step (at_ 0 [0x47, 0xC8])) (fun t => t.out == [] && t.status == .faulted (.invalidRegisterIndex 0xC8)) = true := by
  decide
/-- Vector M3: 255 * 255 gives 0x01. -/
theorem test_mul :
    check (step (((at_ 0 [0xA2, 0, 1]).setReg 0 255).setReg 1 255)) (fun t => t.reg 0 == 0x01 && t.reg 1 == 255) = true := by
  decide
/-- Vector M7: a square, 17 * 17 gives 0x21. -/
theorem test_mul_square : check (step ((at_ 0 [0xA2, 3, 3]).setReg 3 17)) (fun t => t.reg 3 == 0x21) = true := by decide
/-- Vector A3: 200 + 100 gives 0x2C. -/
theorem test_add :
    check (step (((at_ 0 [0xA0, 0, 1]).setReg 0 200).setReg 1 100)) (fun t => t.reg 0 == 0x2C && t.reg 1 == 100) = true := by
  decide
/-- Vector A7: `opa` is tested before `opb`. -/
theorem test_add_index_order :
    check (step (at_ 0 [0xA0, 9, 8])) (fun t => t.status == .faulted (.invalidRegisterIndex 9)) = true := by decide
/-- Vector C4: unsigned, 0x80 is greater than 0x7F. -/
theorem test_cmp_unsigned :
    check (step (((at_ 0 [0xA7, 0, 1]).setReg 0 0x80).setReg 1 0x7F)) (fun t => t.fl == 0x01 && t.pc == 3) = true := by
  decide
/-- Vector C9: the old flag does not survive. -/
theorem test_cmp_replaces :
    check (step ((((at_ 0 [0xA7, 0, 1]).setReg 0 10).setReg 1 5).setFl 0x02)) (fun t => t.fl == 0x01) = true := by decide
/-- Vector K3: PUSH R7 stores the decremented stack pointer. -/
theorem test_push_sp :
    check (step (at_ 0 [0x45, 7])) (fun t => t.sp == 0xF2 && t.byteAt 0xF2 == 0xF2 && t.pc == 2) = true := by decide
/-- Vector K4: PUSH at 0 faults with -1 and changes nothing. -/
theorem test_push_at_0 :
    check (step (((at_ 0 [0x45, 0]).setReg 0 9).setReg 7 0))
      (fun t => t.status == .faulted (.outOfBoundsAddress (-1)) && t.sp == 0 && t.pc == 0 && t.byteAt 255 == 0) = true := by
  decide
/-- Vector K6: POP R7 ends with the popped value plus one. -/
theorem test_pop_sp : check (step (cell 0xF3 0x40 (at_ 0 [0x46, 7]))) (fun t => t.sp == 0x41 && t.pc == 2) = true := by decide
/-- Vector K9: POP at 0xFF faults and writes no register. -/
theorem test_pop_at_255 :
    check (step (cell 0xFF 0xAB ((at_ 0 [0x46, 2]).setReg 7 0xFF)))
      (fun t => t.status == .faulted (.outOfBoundsAddress 256) && t.reg 2 == 0 && t.sp == 0xFF) = true := by decide
/-- Vector T2: CALL R7 jumps to the decremented stack pointer. -/
theorem test_call_sp :
    check (step (at_ 0 [0x50, 7])) (fun t => t.sp == 0xF2 && t.byteAt 0xF2 == 0x02 && t.pc == 0xF2) = true := by decide
/-- Vector T3: the latched operand is used when the push overwrites it. -/
theorem test_call_latched :
    check (step (((at_ 0x10 [0x50, 1]).setReg 1 0x40).setReg 7 0x12))
      (fun t => t.sp == 0x11 && t.byteAt 0x11 == 0x12 && t.pc == 0x40) = true := by decide
/-- Vector T6: RET. -/
theorem test_ret :
    check (step (cell 0xF2 0x08 ((at_ 0x0E [0x11]).setReg 7 0xF2))) (fun t => t.pc == 0x08 && t.sp == 0xF3) = true := by decide
/-- Vector T8: RET at 0xFF faults. -/
theorem test_ret_at_255 :
    check (step (cell 0xFF 0x33 ((at_ 0 [0x11]).setReg 7 0xFF)))
      (fun t => t.status == .faulted (.outOfBoundsAddress 256) && t.pc == 0 && t.sp == 0xFF) = true := by decide
/-- Vector T9: JMP ignores its operand byte. -/
theorem test_jmp :
    check (step (cell 0xF2 0x09 ((at_ 0 [0x54, 0xC8]).setReg 7 0xF2))) (fun t => t.pc == 0x09 && t.sp == 0xF3) = true := by
  decide
/-- Vector T11: JMP does not read the register its operand byte names. -/
theorem test_jmp_not_register :
    check (step (cell 0xF2 0x09 (((at_ 0 [0x54, 3]).setReg 3 0x77).setReg 7 0xF2))) (fun t => t.pc == 0x09) = true := by
  decide

/-! ### The cycle, the statuses and the host's events -/

/-- Vector I5: at 255 the fetch bound comes before the opcode. -/
theorem test_fetch_before_decode :
    check (step (at_ 255 [0xFF])) (fun t => t.status == .faulted (.outOfBoundsAddress 256)) = true := by decide
/-- Vector I2: an illegal byte that looks well formed. -/
theorem test_unrecognized :
    check (step (at_ 0 [0xA1, 0, 1])) (fun t => t.status == .faulted (.unrecognizedOpcode 0xA1) && t.pc == 0) = true := by
  decide
/-- Vector Z1: nothing runs in `Idle`. -/
theorem test_idle_step : check (step State.reset) (fun t => decide (t = State.reset)) = true := by decide
/-- R235, the first bytes of program P1. -/
theorem test_launch :
    check (State.launch [0x82, 0x00, 0x08])
      (fun t => t.status == .running && t.byteAt 0 == 0x82 && t.byteAt 2 == 0x08 && t.byteAt 3 == 0 && t.sp == 0xF3) = true := by
  decide
/-- A load outside `Idle` is refused by name. -/
theorem test_load_running :
    (match (at_ 0 []).load [1] with | .refused r => r == .loadOutsideIdle | .next _ => false | .fault _ => false) = true := by
  decide
/-- A program of 257 bytes is refused by name. -/
theorem test_load_long (p : List Byte) (h : p.length = 257) : State.reset.load p = .refused (.programTooLong 257) := by
  simp [State.load, State.reset, Config.memSize, h]
/-- A word placed from reset runs in the very next step. -/
theorem test_with_fetch_word :
    check (step (State.reset.withFetchWord 24 0x080082)) (fun t => t.reg 0 == 8 && t.pc == 3) = true := by decide

/-! ### Witnesses: states and operands that meet each statement's hypotheses, one for each clause -/

/-- LengthAndSetsPcAreOpcodeFields, DecodeEncodeAgree. -/
theorem witness_decode :
    opcodeSetsPc 0x50 = true ∧
    (match decodeBytes [0x54, 0xC8, 0x11] with | .ok r => r == (.jmp 0xC8, [0x11]) | .error _ => false) = true ∧
    (match decode 0x82 7 255 with | .ok i => i == .ldi 7 255 | .error _ => false) = true := by decide
/-- WriteAccessorChangesOneCell: both clauses at their bounds. -/
theorem witness_write_accessor :
    Memory.wf (at_ 0 [0x01, 0x02]).mem = true ∧ ((-1 : Int) < 0 ∨ (-1 : Int) > 255) ∧ ((256 : Int) < 0 ∨ (256 : Int) > 255) ∧
    ((0 : Int) ≤ 0 ∧ (0 : Int) ≤ 255) ∧ ((0 : Int) ≤ 255 ∧ (255 : Int) ≤ 255) := by decide
/-- CanonicalMemoriesReadingAlikeAreEqual: a memory with entries at both ends. -/
theorem witness_canonical : ∃ m : Memory, Memory.wf m = true ∧ m.length = 2 ∧ ∀ a, Memory.read m a = Memory.read m a :=
  ⟨[(0, 1), (255, 2)], by decide, rfl, fun _ => rfl⟩
/-- StepRunsDecodedInstruction: a fetch at 253 that decodes. -/
theorem witness_step_runs : (at_ 253 [0xA0, 1, 2]).Fetches 0xA0 1 2 ∧ decode 0xA0 1 2 = .ok (.add 1 2) := ⟨by decide, rfl⟩
/-- OnlyCallRetAndJmpTouchPc: a fetch that decodes, and a handler that completes. -/
theorem witness_no_pc :
    ((at_ 253 [0x45, 3, 2]).Fetches 0x45 3 2 ∧ decode 0x45 3 2 = .ok (.push 3)) ∧
    (∀ a, Instr.push 3 ≠ .call a) ∧ Instr.push 3 ≠ .ret ∧ (∀ v, Instr.push 3 ≠ .jmp v) ∧
    ∃ t, exec (.push 3) (at_ 9 []) = .next t ∧ (t.pc == 9) = true :=
  ⟨⟨by decide, rfl⟩, nofun, nofun, nofun, exists_next (p := fun t => t.pc == 9) (by decide)⟩
/-- FetchPastTopFaults: both addresses. -/
theorem witness_fetch_top :
    ((at_ 254 [1]).status = .running ∧ 254 ≤ (at_ 254 [1]).pc.toNat) ∧
    ((at_ 255 [1]).status = .running ∧ 254 ≤ (at_ 255 [1]).pc.toNat) := by decide
/-- UnrecognizedOpcodeFaults: at the highest fetchable address. -/
theorem witness_unrecognized :
    (at_ 253 [0xA1, 1, 2]).Fetches 0xA1 1 2 ∧
    (0xA1 : Byte) ∉ [(0x01 : Byte), 0x82, 0x47, 0xA2, 0xA0, 0xA7, 0x45, 0x46, 0x50, 0x11, 0x54] := by decide
/-- StatusTransitions: a status that is not `Running`, a running step, a load. -/
theorem witness_statuses :
    State.reset.status ≠ .running ∧ (State.reset.setStatus .halted).status ≠ .running ∧
    (State.reset.raise (.outOfBoundsAddress 256)).status ≠ .running ∧
    (∃ t, step (at_ 0 [0x01]) = .next t ∧ (t.status == .halted) = true) ∧
    (∃ t, State.reset.load [1, 2] = .next t ∧ (t.byteAt 1 == 2) = true) :=
  ⟨by decide, by decide, by decide, exists_next (p := fun t => t.status == .halted) (by decide),
    exists_next (p := fun t => t.byteAt 1 == 2) (by decide)⟩
/-- FaultingCycleIsPrecise, NoStepRaisesUnsupportedAluOperation: a handler's fault, and the advance fault. -/
theorem witness_faulting_cycles :
    (at_ 0 [0x45, 9]).status = .running ∧
    (∃ t, step (at_ 0 [0x45, 9]) = .next t ∧ (t.status == .faulted (.invalidRegisterIndex 9)) = true) ∧
    (at_ 253 [0xA2, 0, 1]).status = .running ∧
    (∃ t, step (at_ 253 [0xA2, 0, 1]) = .next t ∧ (t.status == .faulted (.outOfBoundsAddress 256)) = true) :=
  ⟨rfl, exists_next (p := fun t => t.status == .faulted (.invalidRegisterIndex 9)) (by decide), rfl,
    exists_next (p := fun t => t.status == .faulted (.outOfBoundsAddress 256)) (by decide)⟩
/-- LdiLoadsImmediate, PrnEmitsRegister, AddAndMulAreModular, CmpWritesOneHotFlag: the first and the last register. -/
theorem witness_registers : (0 : Byte).toNat < 8 ∧ (7 : Byte).toNat < 8 := by decide
/-- PushStoresBelowStackPointer, CallPushesReturnAddress: at the lowest stack pointer that completes, and at 253. -/
theorem witness_push_call :
    (7 : Byte).toNat < 8 ∧ 1 ≤ ((at_ 253 []).setReg 7 1).x[7].toNat ∧ ((at_ 253 []).setReg 7 1).pc.toNat ≤ 253 := by decide
/-- PopLoadsAndIncrements: another register at stack pointer 254; register 7 with 0xFE on top. -/
theorem witness_pop :
    ((6 : Byte).toNat < 8 ∧ (6 : Byte).toNat ≠ 7 ∧ ((at_ 0 []).setReg 7 254).x[7].toNat ≠ 255) ∧
    ((7 : Byte).toNat < 8 ∧ (7 : Byte).toNat = 7 ∧
      ((cell 0xF3 0xFE (at_ 0 [])).byteAt (cell 0xF3 0xFE (at_ 0 [])).x[7].toNat).toNat ≠ 255) := by decide
/-- RetAndJmpPopProgramCounter: at the highest stack pointer that completes. -/
theorem witness_ret_jmp : ((at_ 0 []).setReg 7 254).x[7].toNat ≠ 255 := by decide
/-- RegisterIndexAboveSevenFaults: both clauses at their bounds. -/
theorem witness_index : 7 < (8 : Byte).toNat ∧ 7 < (255 : Byte).toNat ∧ ((7 : Byte).toNat ≤ 7 ∧ 7 < (8 : Byte).toNat) := by
  decide
/-- StackPointerNeverWraps: each of the four clauses. -/
theorem witness_stack_ends :
    ((7 : Byte).toNat < 8 ∧ ((at_ 0 []).setReg 7 0).x[7].toNat = 0) ∧
    ((6 : Byte).toNat < 8 ∧ (6 : Byte).toNat ≠ 7 ∧ ((at_ 0 []).setReg 7 255).x[7].toNat = 255) ∧
    ((7 : Byte).toNat = 7 ∧ ((cell 0xF3 0xFF (at_ 0 [])).byteAt (cell 0xF3 0xFF (at_ 0 [])).x[7].toNat).toNat = 255) := by
  decide
/-- RegisterInstructionsFrame, StackStoresFrame, StackLoadsFrame: every instruction named in them answers a next state. -/
theorem witness_frames :
    ∀ i ∈ [Instr.hlt, .ldi 1 9, .prn 1, .mul 1 2, .add 1 2, .cmp 1 2, .push 1, .call 1, .pop 1, .ret, .jmp 1],
      i.wellFormed = true ∧ check (exec i (at_ 0 [])) (fun t => !t.status.isFaulted) = true := by decide
/-- HltCycle: both clauses at their bounds. -/
theorem witness_hlt_cycle :
    ((at_ 253 [1]).status = .running ∧ (at_ 253 [1]).byteAt 253 = 0x01 ∧ (at_ 253 [1]).pc.toNat ≤ 253) ∧
    ((at_ 254 [1]).status = .running ∧ (at_ 254 [1]).byteAt 254 = 0x01 ∧ 254 ≤ (at_ 254 [1]).pc.toNat) := by decide
/-- LdiCycle, MulCycle, AddCycle, CmpCycle: legal operands below 253 and at 253, a bad `opa`, a bad `opb`. -/
theorem witness_three_byte_cycles :
    ∀ ir ∈ [(0x82 : Byte), 0xA2, 0xA0, 0xA7],
      (at_ 252 [ir, 7, 0]).Fetches ir 7 0 ∧ (at_ 253 [ir, 7, 7]).Fetches ir 7 7 ∧ (at_ 0 [ir, 8, 0]).Fetches ir 8 0 ∧
      (at_ 0 [ir, 0, 8]).Fetches ir 0 8 := by decide
/-- CmpCycle and CmpWritesOneHotFlag: Equal, Less and Greater each happen. -/
theorem witness_cmp_orders :
    let s := ((at_ 0 []).setReg 1 5).setReg 2 10
    s.x[1].toNat = s.x[1].toNat ∧ s.x[1].toNat < s.x[2].toNat ∧ s.x[2].toNat > s.x[1].toNat := by decide
/-- PrnCycle, PushCycle, PopCycle, CallCycle: a legal operand at 253 and a bad one; PUSH and CALL also with `x[7]` 0. -/
theorem witness_two_byte_cycles :
    (∀ ir ∈ [(0x47 : Byte), 0x45, 0x46, 0x50],
      (at_ 253 [ir, 7, 9]).Fetches ir 7 9 ∧ (at_ 0 [ir, 8, 0]).Fetches ir 8 0) ∧
    (∀ ir ∈ [(0x45 : Byte), 0x50],
      ((at_ 0 [ir, 7, 9]).setReg 7 0).Fetches ir 7 9 ∧ ((at_ 0 [ir, 7, 9]).setReg 7 0).x[7].toNat = 0) := by decide
/-- PopCycle and RetAndJmpCycle: the stack pointer at 254, at 255, and 0xFF on top for POP R7. -/
theorem witness_pop_cycles :
    (∀ ir ∈ [(0x46 : Byte), 0x11, 0x54], ((at_ 9 [ir, 1, 2]).setReg 7 254).Fetches ir 1 2 ∧
      ((at_ 9 [ir, 1, 2]).setReg 7 255).Fetches ir 1 2) ∧
    (cell 0xF3 0xFF (at_ 9 [0x46, 7, 2])).Fetches 0x46 7 2 ∧ (cell 0xF3 0xFF (at_ 9 [0x46, 7, 2])).byteAt 0xF3 = 0xFF := by
  decide
/-- FlagsWrittenOnlyByCmp. -/
theorem witness_flags_change : ∃ t, step (at_ 0 [0xA7, 0, 7]) = .next t ∧ decide (t.fl ≠ (at_ 0 [0xA7, 0, 7]).fl) = true :=
  exists_next (p := fun t => decide (t.fl ≠ (at_ 0 [0xA7, 0, 7]).fl)) (by decide)
/-- FlagsAndOutputSteerNothing, OutputGrowsOnlyByPrn: a step that emits. -/
theorem witness_output : ∃ t, step (at_ 0 [0x47, 7]) = .next t ∧ (t.out == [243]) = true :=
  exists_next (p := fun t => t.out == [243]) (by decide)
/-- MemoryWrittenOnlyByPushAndCall: steps that change memory. -/
theorem witness_memory_change :
    (∃ t, step (at_ 0 [0x45, 7]) = .next t ∧ decide (t.mem ≠ (at_ 0 [0x45, 7]).mem) = true) ∧
    (∃ t, step (at_ 0 [0x50, 7]) = .next t ∧ decide (t.mem ≠ (at_ 0 [0x50, 7]).mem) = true) :=
  ⟨exists_next (p := fun t => decide (t.mem ≠ (at_ 0 [0x45, 7]).mem)) (by decide),
    exists_next (p := fun t => decide (t.mem ≠ (at_ 0 [0x50, 7]).mem)) (by decide)⟩
/-- StoredByteIsFetchedNext: a PUSH R0 at `pc` with the stack pointer three above it. -/
def storeOntoNext (pc : Byte) : State := (at_ pc [0x45, 0, 0xFF]).setReg 7 (pc + 3)
/-- StoredByteIsFetchedNext: at both ends of its range of `pc`. -/
theorem witness_stored_byte :
    ∀ pc ∈ [(0 : Byte), 251], (0 : Byte).toNat < 7 ∧ Memory.wf (storeOntoNext pc).mem = true ∧
      (storeOntoNext pc).Fetches 0x45 0 0xFF ∧ (storeOntoNext pc).pc.toNat ≤ 251 ∧
      (storeOntoNext pc).x[7].toNat = (storeOntoNext pc).pc.toNat + 3 := by decide
/-- The hypotheses of PushThenPopRestores. -/
def PushPopReady (s : State) (a b : Byte) : Prop :=
  a.toNat < 8 ∧ Memory.wf s.mem = true ∧ s.Fetches 0x45 a b ∧ s.pc.toNat ≤ 251 ∧ s.byteAt (s.pc.toNat + 2) = 0x46 ∧
    s.byteAt (s.pc.toNat + 3) = a ∧ 1 ≤ s.x[7].toNat ∧ s.x[7].toNat ≠ s.pc.toNat + 3 ∧ s.x[7].toNat ≠ s.pc.toNat + 4
/-- PushThenPopRestores: register 3 with `x[7]` 1, and register 7 with `pc` 251. -/
theorem witness_push_pop :
    PushPopReady ((at_ 9 [0x45, 3, 0x46, 3]).setReg 7 1) 3 0x46 ∧ PushPopReady (at_ 251 [0x45, 7, 0x46, 7]) 7 0x46 := by
  unfold PushPopReady
  decide
/-- CallThenRetReturns: with the empty body, `u` the state after the CALL. -/
theorem witness_call_ret :
    (1 : Byte).toNat < 8 ∧ 1 ≤ (at_ 6 [0x50, 1]).x[7].toNat ∧ Memory.wf (at_ 6 [0x50, 1]).mem = true ∧
    (at_ 6 [0x50, 1]).Fetches 0x50 1 0 ∧
    ∃ t, step (at_ 6 [0x50, 1]) = .next t ∧ check (exec .ret t) (fun v => v.pc == 8) = true :=
  ⟨by decide, by decide, by decide, by decide,
    exists_next (p := fun t => check (exec .ret t) (fun v => v.pc == 8)) (by decide)⟩
/-- StepKeepsInvariant, EventsKeepInvariant: a state that meets the invariant and steps to another. -/
theorem witness_invariant :
    (at_ 0 [0x45, 7]).Inv ∧ (∃ t, step (at_ 0 [0x45, 7]) = .next t ∧ decide (t ≠ at_ 0 [0x45, 7]) = true) ∧
    State.reset.Inv ∧ (∃ t, State.reset.load [1] = .next t ∧ decide (t ≠ State.reset) = true) :=
  ⟨by decide, exists_next (p := fun t => decide (t ≠ at_ 0 [0x45, 7])) (by decide), by decide,
    exists_next (p := fun t => decide (t ≠ State.reset)) (by decide)⟩
/-- LoaderWritesProgramFromZero, LaunchStateIsTheProgram: the longest program and the empty one. -/
theorem witness_loader :
    State.reset.status = .idle ∧ (∃ p : List Byte, p.length = 256 ∧ p.length ≤ 256) ∧ ([] : List Byte).length ≤ 256 ∧
    Memory.wf State.reset.mem = true := ⟨rfl, ⟨List.ofFn (n := 256) fun _ => 1, List.length_ofFn, List.length_ofFn.le⟩, by decide, rfl⟩
/-- RunStartsAnIdleMachine: both clauses. -/
theorem witness_run : State.reset.status = .idle ∧ (at_ 0 []).status ≠ .idle := by decide
/-- PlacedWordRunsNext: also with `pc` at 255. -/
theorem witness_placed_word :
    Memory.wf (at_ 255 []).mem = true ∧ decodeTableWord 24 0x0801A2 = some (.mul 1 8) := by decide

/-! ### Runs (spec/40_dispatch_cycle.md R122): one witness for each fate -/

/-- The launch state of a program of at most 256 bytes. -/
def launched (p : List Byte) : State := { State.reset with mem := putBytes 0 p [], status := .running }

/-- Program P6: after three cycles the state is the launch state again. -/
def p6 : List Byte := [0x82, 0x00, 0x00, 0x45, 0x00, 0x54, 0x00]
theorem test_p6_launch : check (State.launch p6) (fun t => decide (t = launched p6)) = true := by decide
theorem test_p6_first : check (step (launched p6)) (fun t => t.status == .running && t.pc == 3) = true := by decide
theorem test_p6_period : runLoop 3 (launched p6) = .next (launched p6) := rfl

/-- RunHasExactlyOneFate, third fate: P6 runs for ever. -/
theorem witness_never_ends : ∀ fuel : Nat, ∃ t, runLoop fuel (launched p6) = .next t ∧ t.status = .running
  | 0 => ⟨_, rfl, rfl⟩
  | 1 => ⟨_, rfl, rfl⟩
  | 2 => ⟨_, rfl, rfl⟩
  | fuel + 3 => witness_never_ends fuel
/-- RunHasExactlyOneFate, first fate, and RunHaltsIffHltIsExecuted: a lone HLT. -/
theorem witness_ends_halted :
    (launched [0x01]).status = .running ∧ EndsHalted (launched [0x01]) ∧ ExecutesHlt (launched [0x01]) :=
  ⟨rfl, ⟨1, _, rfl, rfl⟩, 0, _, 0, 0, rfl, by decide⟩
/-- RunHasExactlyOneFate, second fate: program P8. -/
theorem witness_ends_faulted :
    (launched [0xFF]).status = .running ∧ EndsFaulted (.unrecognizedOpcode 0xFF) (launched [0xFF]) :=
  ⟨rfl, 1, _, rfl, rfl⟩
/-- FuelOnlyExtendsARun: a run cut while running, and one that has ended. -/
theorem witness_fuel :
    runLoop 3 (launched p6) = .next (launched p6) ∧
    ∃ t, runLoop 1 (launched [0x01]) = .next t ∧ (t.status ≠ .running) :=
  ⟨rfl, _, rfl, nofun⟩
/-- ExecutorFollowsTheLaunchedRun: a program and the executor's answer. -/
theorem witness_execute :
    ([0x01] : List Byte).length ≤ 256 ∧ check (execute 9 [0x01]) (fun t => t.status == .halted && t.pc == 1) = true := by
  decide

end Sys2Proof.Tests
end

/-! The two accessors of memory (spec/20_memory.md R50, R51): each outcome by the address alone, what a write does to the
cells, and the two obligations of the family. -/

namespace Sys2Proof.Machine

open Sys2Proof

/-- Outside the address space, MemWrite raises the bounds fault with the address (R51, R52). -/
theorem memWrite_outOfBounds {addr : Int} (v : Nat) (s : State) (h : addr < 0 ∨ addr > 255) :
    memWrite addr v s = .error (.outOfBoundsAddress addr) := by
  rw [memWrite_eq, if_neg (by omega)]

/-- Inside the address space, MemWrite stores the value modulo 256 in the addressed cell (R51). -/
theorem memWrite_inBounds {addr : Int} (v : Nat) (s : State) (h : 0 ≤ addr ∧ addr ≤ 255) :
    memWrite addr v s = .ok { s with mem := Memory.write s.mem addr.toNat (BitVec.ofNat 8 v) } := by
  rw [memWrite_eq, if_pos ⟨h.1, by omega⟩]

/-- Storing a byte at a non-negative address changes no other cell, in canonical memory or not. -/
theorem sameMemoryExcept_write {addr : Int} (s : State) (b : Byte) (h : 0 ≤ addr) :
    SameMemoryExcept addr s { s with mem := Memory.write s.mem addr.toNat b } := by
  intro a ha
  have hne : a ≠ addr.toNat := by omega
  exact Memory.read_write_other s.mem addr.toNat a b hne

/-- Settles O4: the bounds test of the model is the negation of the one R50 writes. -/
theorem readAccessorIsBounded : Obligations.ReadAccessorIsBounded := by
  intro addr s
  rw [memRead_eq]
  by_cases h : addr < 0 ∨ addr > 255
  · rw [if_pos h, if_neg (by omega)]
  · rw [if_neg h, if_pos (by omega)]

/-- Settles O5: out of bounds the fault; in bounds the write is read back, spares the other cells and keeps the canonical
form, and it is an update of the field `mem` alone. -/
theorem writeAccessorChangesOneCell : Obligations.WriteAccessorChangesOneCell := by
  intro addr v s hwf
  refine ⟨memWrite_outOfBounds v s, fun hin => ⟨_, memWrite_inBounds v s hin, ?_, ?_, ?_, rfl, rfl, rfl, rfl, rfl⟩⟩
  · have hread := Memory.read_write_self s.mem addr.toNat (BitVec.ofNat 8 v) hwf
    exact (congrArg BitVec.toNat hread).trans (BitVec.toNat_ofNat v 8)
  · exact sameMemoryExcept_write s _ hin.1
  · have ha : addr.toNat < Config.memSize := by unfold Config.memSize; omega
    exact Memory.wf_write s.mem addr.toNat _ hwf ha

end Sys2Proof.Machine

/-! The dispatch cycle (spec/40_dispatch_cycle.md R113, R115, R116): what a successful fetch hands to dispatch, the opcode
byte's fields, and the handlers that have nothing to do with `pc`. -/

namespace Sys2Proof.Machine

open Sys2Proof

/-! ### A fetch that succeeds -/

/-- The latched bytes are the fetched ones (R111). -/
theorem fetch_of_fetches {s : State} {ir opa opb : Byte} (hf : s.Fetches ir opa opb) :
    fetch s = .ok ⟨ir, opa, opb⟩ := by
  obtain ⟨-, hpc, rfl, rfl, rfl⟩ := hf
  rw [fetch_eq, if_pos hpc]

/-- The handler of a fetched instruction runs on the state of the fetch itself (R114, R116). -/
theorem step_of_fetches_decode {s : State} {ir opa opb : Byte} {i : Instr} (hf : s.Fetches ir opa opb)
    (hd : decode ir opa opb = .ok i) : step s = finishCycle ir (exec i s) :=
  (step_running hf.1).trans (cycle_of_decode (fetch_of_fetches hf) hd)

/-- A fetched byte that is no opcode takes the decode fault (R115). -/
theorem step_of_fetches_decode_error {s : State} {ir opa opb : Byte} {e : DecodeError} (hf : s.Fetches ir opa opb)
    (hd : decode ir opa opb = .error e) : step s = .next (s.raise (.unrecognizedOpcode ir)) :=
  (step_running hf.1).trans (cycle_of_decode_error (fetch_of_fetches hf) hd)

/-- A byte outside the opcode column of the map decodes to nothing (spec/30_encoding.md R88). -/
theorem decode_of_not_opcode {ir : Byte} (opa opb : Byte) (h : ir ∉ opcodeMap.map Prod.fst) :
    decode ir opa opb = .error (.unrecognizedOpcode ir) := by
  have hnone : opcodeMap.lookup ir = none :=
    List.lookup_eq_none_iff.2 fun row hrow => bne_iff_ne.2 fun e => h (e ▸ List.mem_map_of_mem hrow)
  rw [decode, hnone]

/-! ### The fields of the opcode byte -/

/-- A field as a number is the bit vector of its bits (spec/00_scope.md R7). -/
theorem bitField_eq_extractLsb' (v : Byte) (lo width : Nat) : bitField v lo width = (v.extractLsb' lo width).toNat := by
  rw [bitField, BitVec.extractLsb'_toNat, Nat.shiftRight_eq_div_pow]

/-- The `sets_pc` field is bit 4 (spec/30_encoding.md R83). -/
theorem opcodeSetsPc_eq_getLsbD (ir : Byte) : opcodeSetsPc ir = ir.getLsbD 4 :=
  (Nat.testBit_eq_decide_div_mod_eq).symm

/-- With `sets_pc` the cycle does not advance (R117). -/
theorem advance_of_setsPc {ir : Byte} (s : State) (h : opcodeSetsPc ir = true) : advance ir s = s := by
  rw [advance_eq, if_pos (Or.inr h)]

/-! ### Handlers that have nothing to do with `pc`

One equation says both halves of R116: an operation that commutes with setting `pc` cannot read it, and setting `pc` to the
value it has shows that the operation cannot write it either. -/

/-- The sub-step commutes with setting `pc`. -/
def CommutesWithSetPc (f : State → Raising State) : Prop :=
  ∀ (s : State) (p : Byte), f (s.setPc p) = (f s).map (·.setPc p)

/-- The handler, where it completes, commutes with setting `pc`. -/
def IgnoresPc (h : State → Outcome) : Prop :=
  ∀ (s t : State) (p : Byte), h s = .next t → h (s.setPc p) = .next (t.setPc p)

/-- A handler that ignores `pc` does not write it. -/
theorem IgnoresPc.pc_eq {h : State → Outcome} (hi : IgnoresPc h) {s t : State} (ht : h s = .next t) : t.pc = s.pc := by
  have hself : h s = .next (t.setPc s.pc) := hi s t s.pc ht
  have e : t = t.setPc s.pc := Host.Outcome.next.inj (ht.symm.trans hself)
  rw [e, State.setPc_pc]

/-- A sub-step that starts with something computed without `pc`: an operand check, or a read of memory. -/
theorem CommutesWithSetPc.bind_of_const {α : Type} {r : State → Raising α} {f : α → State → Raising State}
    (hr : ∀ s p, r (s.setPc p) = r s) (hf : ∀ v, CommutesWithSetPc (f v)) :
    CommutesWithSetPc fun s => r s >>= fun v => f v s := by
  intro s p
  simp only [hr]
  cases r s with
  | error e => rfl
  | ok v => exact hf v s p

/-- Two sub-steps, the second on the state that the first left. -/
theorem CommutesWithSetPc.bind {f g : State → Raising State} (hf : CommutesWithSetPc f) (hg : CommutesWithSetPc g) :
    CommutesWithSetPc fun s => f s >>= g := by
  intro s p
  simp only [hf s p]
  cases f s with
  | error e => rfl
  | ok t => exact hg t p

/-- The end of a handler, raise or not, carries the `pc` it was given (R199). -/
theorem settle_setPc {s t : State} {r : Raising State} (p : Byte) (h : settle s r = .next t) :
    settle (s.setPc p) (r.map (·.setPc p)) = .next (t.setPc p) := by
  cases r with
  | ok u => cases h; rfl
  | error e => cases h; rfl

/-- A handler made of such sub-steps ignores `pc`. -/
theorem CommutesWithSetPc.settle {f : State → Raising State} (hf : CommutesWithSetPc f) :
    IgnoresPc fun s => settle s (f s) := by
  intro s t p h
  simp only [hf s p]
  exact settle_setPc p h

theorem alu_commutesWithSetPc (kind : AluKind) (a b : Fin 8) : CommutesWithSetPc (alu kind a b) := by
  intro s p
  cases kind <;> rfl

theorem moveSp_commutesWithSetPc (sp : Int) : CommutesWithSetPc (moveSp sp) := by
  intro s p
  unfold moveSp
  split <;> rfl

/-- The move's target is computed from `x[7]` alone. -/
theorem spDecrement_commutesWithSetPc : CommutesWithSetPc spDecrement :=
  fun s p => moveSp_commutesWithSetPc (pushAddress s) s p

theorem spIncrement_commutesWithSetPc : CommutesWithSetPc spIncrement :=
  fun s p => moveSp_commutesWithSetPc (popNext s) s p

theorem memWrite_commutesWithSetPc (addr : Int) (v : Nat) : CommutesWithSetPc (memWrite addr v) := by
  intro s p
  unfold memWrite
  split <;> rfl

theorem execHlt_ignoresPc : IgnoresPc execHlt := by
  intro s t p h
  cases h
  rfl

theorem execLdi_ignoresPc (opa opb : Byte) : IgnoresPc (execLdi opa opb) :=
  (CommutesWithSetPc.bind_of_const (r := fun _ => regIndex opa) (fun _ _ => rfl) fun _ _ _ => rfl).settle

theorem execPrn_ignoresPc (opa : Byte) : IgnoresPc (execPrn opa) :=
  (CommutesWithSetPc.bind_of_const (r := fun _ => regIndex opa) (fun _ _ => rfl) fun _ _ _ => rfl).settle

/-- MUL, ADD and CMP. -/
theorem aluHandler_ignoresPc (kind : AluKind) (opa opb : Byte) : IgnoresPc (aluHandler kind opa opb) :=
  (CommutesWithSetPc.bind_of_const (r := fun _ => regIndex2 opa opb) (fun _ _ => rfl)
    fun ab => alu_commutesWithSetPc kind ab.1 ab.2).settle

theorem execPush_ignoresPc (opa : Byte) : IgnoresPc (execPush opa) :=
  (CommutesWithSetPc.bind_of_const (r := fun _ => regIndex opa) (fun _ _ => rfl) fun a =>
    spDecrement_commutesWithSetPc.bind fun s1 p =>
      memWrite_commutesWithSetPc s1.sp.toNat (s1.reg a).toNat s1 p).settle

theorem execPop_ignoresPc (opa : Byte) : IgnoresPc (execPop opa) :=
  (CommutesWithSetPc.bind_of_const (r := fun _ => regIndex opa) (fun _ _ => rfl) fun a =>
    CommutesWithSetPc.bind_of_const (r := fun s => memRead s.sp.toNat s) (fun _ _ => rfl) fun v s p =>
      spIncrement_commutesWithSetPc (s.setReg a v) p).settle

/-- R116, over the whole table of handlers. -/
theorem exec_ignoresPc (i : Instr) (hcall : ∀ a, i ≠ .call a) (hret : i ≠ .ret) (hjmp : ∀ v, i ≠ .jmp v) :
    IgnoresPc (exec i) := by
  cases i with
  | hlt => exact execHlt_ignoresPc
  | ldi a v => exact execLdi_ignoresPc a v
  | prn a => exact execPrn_ignoresPc a
  | mul a b => exact aluHandler_ignoresPc .mul a b
  | add a b => exact aluHandler_ignoresPc .add a b
  | cmp a b => exact aluHandler_ignoresPc .cmp a b
  | push a => exact execPush_ignoresPc a
  | pop a => exact execPop_ignoresPc a
  | call a => exact absurd rfl (hcall a)
  | ret => exact absurd rfl hret
  | jmp v => exact absurd rfl (hjmp v)

/-! ### The obligations of the family -/

/-- Settles O8: the dispatcher hands the handler the state of the fetch, and the eight handlers commute with setting `pc`. -/
theorem onlyCallRetAndJmpTouchPc : Obligations.OnlyCallRetAndJmpTouchPc := by
  refine ⟨fun s ir opa opb i => step_of_fetches_decode, fun i s t p hcall hret hjmp ht => ?_⟩
  have hi : IgnoresPc (exec i) := exec_ignoresPc i hcall hret hjmp
  exact ⟨hi.pc_eq ht, hi s t p ht⟩

/-- Settles O10: the byte decodes to nothing, so the cycle raises, and a faulted machine stays as it is. -/
theorem unrecognizedOpcodeFaults : Obligations.UnrecognizedOpcodeFaults := by
  intro s ir opa opb hf hir
  exact ⟨step_of_fetches_decode_error hf (decode_of_not_opcode opa opb hir), step_ended nofun⟩

/-- Settles O2: both fields are bits of the opcode byte, and the eleven legal bytes are looked at one by one. -/
theorem lengthAndSetsPcAreOpcodeFields : Obligations.LengthAndSetsPcAreOpcodeFields := by
  refine ⟨fun ir => ⟨?_, opcodeSetsPc_eq_getLsbD ir⟩, by decide, by decide, fun ir s => advance_of_setsPc s⟩
  exact congrArg (· + 1) (bitField_eq_extractLsb' ir 6 2)

end Sys2Proof.Machine

/-! The ALU (spec/42_alu.md R140, R142, R145, R148): a handler whose two operands are registers, CMP's outcome on them, and
the byte it writes under each of the three unsigned orders. -/

namespace Sys2Proof.Machine

open Sys2Proof

/-- Two operands below 8 pass `check2` (R142). -/
theorem regIndex2_ok {a b : Byte} (ha : a.toNat < 8) (hb : b.toNat < 8) :
    regIndex2 a b = .ok (⟨a.toNat, ha⟩, ⟨b.toNat, hb⟩) := by
  rw [regIndex2_eq, dif_pos ha, dif_pos hb]

/-- On two registers the handler is one invocation of the ALU (R142). -/
theorem aluHandler_of_registers (kind : AluKind) {a b : Byte} (s : State) (ha : a.toNat < 8) (hb : b.toNat < 8) :
    aluHandler kind a b s = settle s (alu kind ⟨a.toNat, ha⟩ ⟨b.toNat, hb⟩ s) := by
  rw [aluHandler, regIndex2_ok ha hb, raising_bind_ok]

/-- Of the ALU's two results a comparison has only the flags (R140, R145). -/
theorem alu_cmp (a b : Fin 8) (s : State) : alu .cmp a b s = .ok (s.setFl (cmpFlags (s.reg a) (s.reg b))) := rfl

/-- CMP on two registers completes and writes `fl` alone (R145). -/
theorem exec_cmp_of_registers {a b : Byte} (s : State) (ha : a.toNat < 8) (hb : b.toNat < 8) :
    exec (.cmp a b) s = .next (s.setFl (cmpFlags s.x[a.toNat] s.x[b.toNat])) :=
  calc exec (.cmp a b) s
    _ = settle s (alu .cmp ⟨a.toNat, ha⟩ ⟨b.toNat, hb⟩ s) := aluHandler_of_registers .cmp s ha hb
    _ = .next (s.setFl (cmpFlags s.x[a.toNat] s.x[b.toNat])) := by rw [alu_cmp, settle_ok]; rfl

theorem cmpFlags_of_eq {va vb : Byte} (h : va.toNat = vb.toNat) : cmpFlags va vb = 0x04 := if_pos h

theorem cmpFlags_of_lt {va vb : Byte} (h : va.toNat < vb.toNat) : cmpFlags va vb = 0x02 :=
  (if_neg h.ne).trans (if_pos h)

theorem cmpFlags_of_gt {va vb : Byte} (h : va.toNat > vb.toNat) : cmpFlags va vb = 0x01 :=
  (if_neg h.ne').trans (if_neg h.not_gt)

/-- The byte written tells the order of the two compared bytes (R148). -/
theorem cmpFlags_oneHot (va vb : Byte) :
    (cmpFlags va vb = 0x04 ∨ cmpFlags va vb = 0x02 ∨ cmpFlags va vb = 0x01) ∧
    (cmpFlags va vb = 0x04 ↔ va.toNat = vb.toNat) ∧
    (cmpFlags va vb = 0x02 ↔ va.toNat < vb.toNat) ∧
    (cmpFlags va vb = 0x01 ↔ va.toNat > vb.toNat) := by
  rcases Nat.lt_trichotomy va.toNat vb.toNat with hlt | heq | hgt
  · rw [cmpFlags_of_lt hlt]
    exact ⟨by decide, iff_of_false (by decide) hlt.ne, iff_of_true rfl hlt, iff_of_false (by decide) hlt.not_gt⟩
  · rw [cmpFlags_of_eq heq]
    exact ⟨by decide, iff_of_true rfl heq, iff_of_false (by decide) heq.not_lt, iff_of_false (by decide) heq.not_gt⟩
  · rw [cmpFlags_of_gt hgt]
    exact ⟨by decide, iff_of_false (by decide) hgt.ne', iff_of_false (by decide) hgt.not_gt, iff_of_true rfl hgt⟩

/-- Settles O18: the byte is the comparison's, and the order of the two registers decides it. -/
theorem cmpWritesOneHotFlag : Obligations.CmpWritesOneHotFlag :=
  fun s a b ha hb =>
    ⟨cmpFlags s.x[a.toNat] s.x[b.toNat], exec_cmp_of_registers s ha hb, cmpFlags_oneHot s.x[a.toNat] s.x[b.toNat]⟩

end Sys2Proof.Machine

/-! Decoding and encoding agree (spec/30_encoding.md R80, R85, R97): one fact about the rows of the opcode map, one about the
rows an instruction's opcode finds, and the obligations about the decoder. -/

namespace Sys2Proof

/-- Each row of the map builds, from any two operand bytes, an instruction with the row's opcode and with as many of the two
bytes as the opcode's `nops` field says (R81, R85). -/
theorem opcodeMap_row_encodes {row : Byte × (Byte → Byte → Instr)} (h : row ∈ opcodeMap) (a b : Byte) :
    (row.2 a b).opcode = row.1 ∧ (row.2 a b).operandBytes = [a, b].take (opcodeNops row.1) := by
  simp only [opcodeMap, List.cons_append, List.nil_append, List.mem_cons, List.not_mem_nil, or_false] at h
  rcases h with rfl | rfl | rfl | rfl | rfl | rfl | rfl | rfl | rfl | rfl | rfl <;> exact ⟨rfl, rfl⟩

/-- What a lookup of the map finds is one of its rows. -/
theorem mem_opcodeMap_of_lookup {ir : Byte} {build : Byte → Byte → Instr} (h : opcodeMap.lookup ir = some build) :
    (ir, build) ∈ opcodeMap := by
  obtain ⟨before, after, hsplit, -⟩ := List.lookup_eq_some_iff.1 h
  rw [hsplit]
  exact List.mem_append_right before List.mem_cons_self

/-- An instruction's opcode finds the row that rebuilds it from its own operand bytes, whatever follows them. -/
theorem lookup_opcode (i : Instr) : ∃ build, opcodeMap.lookup i.opcode = some build ∧
    ∀ rest, build ((i.operandBytes ++ rest).getD 0 0) ((i.operandBytes ++ rest).getD 1 0) = i := by
  cases i <;> exact ⟨_, rfl, fun _ => rfl⟩

/-- The length and program-counter columns of R27, for the whole instruction type. -/
theorem encoding_statement : ∀ i : Instr, Laws.Encoding.Statement i
  | .hlt => Laws.Encoding.hlt
  | .ldi a b => Laws.Encoding.ldi a b
  | .prn a => Laws.Encoding.prn a
  | .mul a b => Laws.Encoding.mul a b
  | .add a b => Laws.Encoding.add a b
  | .cmp a b => Laws.Encoding.cmp a b
  | .push a => Laws.Encoding.push a
  | .pop a => Laws.Encoding.pop a
  | .call a => Laws.Encoding.call a
  | .ret => Laws.Encoding.ret
  | .jmp a => Laws.Encoding.jmp a

/-- The `nops` field of an instruction's opcode counts its operand bytes (R81). -/
theorem length_operandBytes (i : Instr) : i.operandBytes.length = opcodeNops i.opcode := by
  obtain ⟨hbytes, hfield, -⟩ := encoding_statement i
  exact Nat.succ.inj (hbytes.trans hfield.symm)

/-- The list decoder on an encoding, whatever follows it. -/
theorem decodeBytes_encode_append (i : Instr) (rest : List Byte) : decodeBytes (encode i ++ rest) = .ok (i, rest) := by
  obtain ⟨build, hlookup, hbuild⟩ := lookup_opcode i
  have henough : ¬ (i.operandBytes ++ rest).length < opcodeNops i.opcode := by
    rw [List.length_append, length_operandBytes]
    omega
  have hdrop : (i.operandBytes ++ rest).drop (opcodeNops i.opcode) = rest := by
    rw [← length_operandBytes, List.drop_left]
  show decodeBytes (i.opcode :: (i.operandBytes ++ rest)) = _
  simp only [decodeBytes, hlookup]
  rw [if_neg henough, hbuild, hdrop]

/-- A list is its first two entries, read with a default, as far as it is asked for. -/
theorem take_getD_pair {n : Nat} (hn : n ≤ 2) {l : List Byte} (hl : n ≤ l.length) :
    [l.getD 0 0, l.getD 1 0].take n = l.take n := by
  match n, l, hn, hl with
  | 0, _, _, _ => rfl
  | 1, _ :: _, _, _ => rfl
  | 2, _ :: _ :: _, _, _ => rfl

/-- No opcode of the map asks for more than two operand bytes. -/
theorem opcodeNops_le_two {ir : Byte} {build : Byte → Byte → Instr} (h : (ir, build) ∈ opcodeMap) : opcodeNops ir ≤ 2 := by
  have hrow := opcodeMap_row_encodes h 0 0
  have hcount := length_operandBytes (build 0 0)
  rw [hrow.1, hrow.2, List.length_take] at hcount
  exact hcount ▸ Nat.min_le_right _ _

/-- Bytes that the list decoder accepts are the encoding of its answer, followed by what it left. -/
theorem eq_encode_append_of_decodeBytes {bytes rest : List Byte} {i : Instr} (h : decodeBytes bytes = .ok (i, rest)) :
    bytes = encode i ++ rest := by
  match bytes with
  | [] => cases h
  | ir :: operands =>
    rw [decodeBytes] at h
    split at h
    · cases h
    · next build hlookup =>
      split at h
      · cases h
      · next henough =>
        cases h
        have hrow := mem_opcodeMap_of_lookup hlookup
        obtain ⟨hop, hbytes⟩ := opcodeMap_row_encodes hrow (operands.getD 0 0) (operands.getD 1 0)
        rw [take_getD_pair (opcodeNops_le_two hrow) (by omega)] at hbytes
        rw [encode, hop, hbytes, List.cons_append, List.take_append_drop]

/-- The hardware's decoder on the bytes latched from an encoding, whatever follows it. -/
theorem decode_opcode (i : Instr) (rest : List Byte) :
    decode i.opcode ((i.operandBytes ++ rest).getD 0 0) ((i.operandBytes ++ rest).getD 1 0) = .ok i := by
  obtain ⟨build, hlookup, hbuild⟩ := lookup_opcode i
  rw [decode, hlookup]
  exact congrArg Except.ok (hbuild rest)

/-- Latched bytes that decode to an instruction are its opcode and, as far as it has them, its operand bytes. -/
theorem eq_encode_of_decode {ir opa opb : Byte} {i : Instr} (h : decode ir opa opb = .ok i) :
    i.opcode = ir ∧ i.operandBytes = [opa, opb].take (opcodeNops ir) := by
  unfold decode at h
  split at h
  · next build hlookup =>
    cases h
    exact opcodeMap_row_encodes (mem_opcodeMap_of_lookup hlookup) opa opb
  · cases h

end Sys2Proof

namespace Sys2Proof.Machine

/-- Settles O3: each half follows from what a row of the map encodes and from which row an opcode finds. -/
theorem decodeEncodeAgree : Obligations.DecodeEncodeAgree := by
  refine ⟨decodeBytes_encode_append, fun _ _ _ => eq_encode_append_of_decodeBytes, fun i p q => ?_,
    fun ir opa opb i h => ?_⟩
  · match hops : i.operandBytes with
    | [] => exact ⟨i.opcode, p, q, [], by rw [encode, hops]; rfl, by simpa [hops] using decode_opcode i [p, q]⟩
    | [a] => exact ⟨i.opcode, a, p, [q], by rw [encode, hops]; rfl, by simpa [hops] using decode_opcode i [p, q]⟩
    | a :: b :: more =>
      exact ⟨i.opcode, a, b, more ++ [p, q], by rw [encode, hops]; rfl, by simpa [hops] using decode_opcode i [p, q]⟩
  · obtain ⟨hop, hbytes⟩ := eq_encode_of_decode h
    exact ⟨[opa, opb].drop (opcodeNops ir), by rw [encode, hop, hbytes, List.cons_append, List.take_append_drop]⟩

/-- Settles O1: each byte's row of the map. -/
theorem opcodeMapDecodes : Obligations.OpcodeMapDecodes := by
  intro a b
  exact ⟨decode_opcode .hlt [], decode_opcode (.ldi a b) [], decode_opcode (.prn a) [b], decode_opcode (.mul a b) [],
    decode_opcode (.add a b) [], decode_opcode (.cmp a b) [], decode_opcode (.push a) [b], decode_opcode (.pop a) [b],
    decode_opcode (.call a) [b], decode_opcode .ret [], decode_opcode (.jmp a) [b]⟩

end Sys2Proof.Machine

/-! The handlers of step 3 (spec/41_hlt_ldi_prn.md, 42_alu.md, 43_stack.md, 44_control_transfer.md), said once: the state in
which an instruction completes, the faults it raises instead, and that in every state exactly one of the two happens. -/

namespace Sys2Proof

/-- The operand bytes that are register indices, in the order in which the handler checks them (spec/30_encoding.md R89,
spec/42_alu.md R142). -/
def Instr.regOperands : Instr → List Byte
  | .hlt => []
  | .ldi a _ => [a]
  | .prn a => [a]
  | .mul a b => [a, b]
  | .add a b => [a, b]
  | .cmp a b => [a, b]
  | .push a => [a]
  | .pop a => [a]
  | .call a => [a]
  | .ret => []
  | .jmp _ => []

/-- Well-formed means that each of them is legal. -/
theorem Instr.wellFormed_eq_all (i : Instr) : i.wellFormed = i.regOperands.all isRegByte := by
  cases i <;> simp [Instr.wellFormed, Instr.regOperands]

end Sys2Proof

namespace Sys2Proof.Machine

open Sys2Proof

/-! ### The stack pointer's moves and a store, as updates of the state -/

/-- The state with `x[7]` one lower. -/
def State.decSp (s : State) : State := s.setReg Config.spIndex (s.sp - 1)

/-- The state with `x[7]` one higher. -/
def State.incSp (s : State) : State := s.setReg Config.spIndex (s.sp + 1)

/-- The state with one cell of memory written. -/
def State.store (s : State) (addr v : Byte) : State := { s with mem := Memory.write s.mem addr.toNat v }

/-- The byte on top of the stack. -/
def State.top (s : State) : Byte := s.byteAt s.sp.toNat

section Updates

variable (s : State) (addr v : Byte)

@[simp] theorem State.decSp_mem : s.decSp.mem = s.mem := rfl
@[simp] theorem State.decSp_x : s.decSp.x = s.x.set 7 (s.x[7] - 1) := rfl
@[simp] theorem State.decSp_pc : s.decSp.pc = s.pc := rfl
@[simp] theorem State.decSp_fl : s.decSp.fl = s.fl := rfl
@[simp] theorem State.decSp_status : s.decSp.status = s.status := rfl
@[simp] theorem State.decSp_out : s.decSp.out = s.out := rfl
@[simp] theorem State.decSp_sp : s.decSp.sp = s.sp - 1 := s.sp_setReg_spIndex (s.sp - 1)

@[simp] theorem State.incSp_mem : s.incSp.mem = s.mem := rfl
@[simp] theorem State.incSp_x : s.incSp.x = s.x.set 7 (s.x[7] + 1) := rfl
@[simp] theorem State.incSp_pc : s.incSp.pc = s.pc := rfl
@[simp] theorem State.incSp_fl : s.incSp.fl = s.fl := rfl
@[simp] theorem State.incSp_status : s.incSp.status = s.status := rfl
@[simp] theorem State.incSp_out : s.incSp.out = s.out := rfl

@[simp] theorem State.store_mem : (s.store addr v).mem = Memory.write s.mem addr.toNat v := rfl
@[simp] theorem State.store_x : (s.store addr v).x = s.x := rfl
@[simp] theorem State.store_pc : (s.store addr v).pc = s.pc := rfl
@[simp] theorem State.store_fl : (s.store addr v).fl = s.fl := rfl
@[simp] theorem State.store_status : (s.store addr v).status = s.status := rfl
@[simp] theorem State.store_out : (s.store addr v).out = s.out := rfl

/-- The stack pointer after a load into a register is the loaded byte where that register is `x[7]` (R163). -/
theorem State.sp_setReg {a : Byte} (ha : a.toNat < 8) :
    (s.setReg ⟨a.toNat, ha⟩ v).sp = if a.toNat = 7 then v else s.x[7] := by
  simp [State.sp_eq, Vector.getElem_set]

/-- A register read after the decrement (R161, R171). -/
theorem State.reg_decSp {a : Byte} (ha : a.toNat < 8) :
    s.decSp.reg ⟨a.toNat, ha⟩ = if a.toNat = 7 then s.x[7] - 1 else s.x[a.toNat] := by
  simp [State.reg, Vector.getElem_set, eq_comm (a := 7)]

/-- Above 0 the decrement is that of the numbers. -/
theorem State.toNat_sp_sub_one {s : State} (h : s.sp.toNat ≠ 0) : (s.sp - 1).toNat = s.sp.toNat - 1 := by
  bv_omega

end Updates

/-! ### The two ends of a handler -/

/-- The state in which the instruction completes. The hypotheses are the checks the handler makes on the way. -/
inductive Completes (s : State) : Instr → State → Prop
  | hlt : Completes s .hlt (s.setStatus .halted)
  | ldi {a : Byte} (v : Byte) (ha : a.toNat < 8) : Completes s (.ldi a v) (s.setReg ⟨a.toNat, ha⟩ v)
  | prn {a : Byte} (ha : a.toNat < 8) : Completes s (.prn a) (s.emit (s.reg ⟨a.toNat, ha⟩))
  | mul {a b : Byte} (ha : a.toNat < 8) (hb : b.toNat < 8) :
      Completes s (.mul a b)
        (s.setReg ⟨a.toNat, ha⟩ (trunc8 ((s.reg ⟨a.toNat, ha⟩).toNat * (s.reg ⟨b.toNat, hb⟩).toNat)))
  | add {a b : Byte} (ha : a.toNat < 8) (hb : b.toNat < 8) :
      Completes s (.add a b)
        (s.setReg ⟨a.toNat, ha⟩ (trunc8 ((s.reg ⟨a.toNat, ha⟩).toNat + (s.reg ⟨b.toNat, hb⟩).toNat)))
  | cmp {a b : Byte} (ha : a.toNat < 8) (hb : b.toNat < 8) :
      Completes s (.cmp a b) (s.setFl (cmpFlags (s.reg ⟨a.toNat, ha⟩) (s.reg ⟨b.toNat, hb⟩)))
  | push {a : Byte} (ha : a.toNat < 8) (hsp : s.sp.toNat ≠ 0) :
      Completes s (.push a) (s.decSp.store (s.sp - 1) (s.decSp.reg ⟨a.toNat, ha⟩))
  | pop {a : Byte} (ha : a.toNat < 8) (hsp : (s.setReg ⟨a.toNat, ha⟩ s.top).sp.toNat ≠ 255) :
      Completes s (.pop a) (s.setReg ⟨a.toNat, ha⟩ s.top).incSp
  | call {a : Byte} (ha : a.toNat < 8) (hsp : s.sp.toNat ≠ 0) :
      Completes s (.call a)
        ((s.decSp.store (s.sp - 1) (BitVec.ofNat 8 (returnAddress s))).setPc (s.decSp.reg ⟨a.toNat, ha⟩))
  | ret (hsp : s.sp.toNat ≠ 255) : Completes s .ret (s.setPc s.top).incSp
  | jmp (v : Byte) (hsp : s.sp.toNat ≠ 255) : Completes s (.jmp v) (s.setPc s.top).incSp

/-- The fault the instruction raises instead of completing: a register operand above 7, the first one first, or a stack
pointer that would leave 0 to 255 (spec/60_exceptions.md R194, R195). -/
inductive Aborts (s : State) : Instr → Fault → Prop
  | index {i : Instr} {a : Byte} {rest : List Byte} (hi : i.regOperands = a :: rest) (ha : ¬ a.toNat < 8) :
      Aborts s i (.invalidRegisterIndex a)
  | secondIndex {i : Instr} {a b : Byte} (hi : i.regOperands = [a, b]) (ha : a.toNat < 8) (hb : ¬ b.toNat < 8) :
      Aborts s i (.invalidRegisterIndex b)
  | push {a : Byte} (ha : a.toNat < 8) (hsp : s.sp.toNat = 0) : Aborts s (.push a) (.outOfBoundsAddress (-1))
  | pop {a : Byte} (ha : a.toNat < 8) (hsp : (s.setReg ⟨a.toNat, ha⟩ s.top).sp.toNat = 255) :
      Aborts s (.pop a) (.outOfBoundsAddress 256)
  | call {a : Byte} (ha : a.toNat < 8) (hsp : s.sp.toNat = 0) : Aborts s (.call a) (.outOfBoundsAddress (-1))
  | ret (hsp : s.sp.toNat = 255) : Aborts s .ret (.outOfBoundsAddress 256)
  | jmp (v : Byte) (hsp : s.sp.toNat = 255) : Aborts s (.jmp v) (.outOfBoundsAddress 256)

/-! ### Each end is `exec`'s answer -/

/-- A handler whose first sub-step is the check of an illegal register operand. -/
theorem settle_regIndex_error {a : Byte} (s : State) (ha : ¬ a.toNat < 8) (f : Fin 8 → Raising State) :
    settle s (regIndex a >>= f) = .next (s.raise (.invalidRegisterIndex a)) := by
  rw [regIndex_error ha, raising_bind_error, settle_error]

/-- A handler whose first sub-step is the check of a legal register operand. -/
theorem settle_regIndex_ok {a : Byte} (s : State) (ha : a.toNat < 8) (f : Fin 8 → Raising State) :
    settle s (regIndex a >>= f) = settle s (f ⟨a.toNat, ha⟩) := by
  rw [regIndex_ok ha, raising_bind_ok]

theorem aluHandler_of_bad_first (kind : AluKind) {a : Byte} (b : Byte) (s : State) (ha : ¬ a.toNat < 8) :
    aluHandler kind a b s = .next (s.raise (.invalidRegisterIndex a)) := by
  rw [aluHandler, regIndex2_eq, dif_neg ha, raising_bind_error, settle_error]

theorem aluHandler_of_bad_second (kind : AluKind) {a b : Byte} (s : State) (ha : a.toNat < 8) (hb : ¬ b.toNat < 8) :
    aluHandler kind a b s = .next (s.raise (.invalidRegisterIndex b)) := by
  rw [aluHandler, regIndex2_eq, dif_pos ha, dif_neg hb, raising_bind_error, settle_error]

/-- R172, R173: the pop of the program counter, with its range test. -/
theorem popPc_ok {s : State} (h : s.sp.toNat ≠ 255) : popPc s = .ok (s.setPc s.top).incSp := by
  rw [popPc, memRead_byte, raising_bind_ok]
  exact spIncrement_ok h

theorem popPc_error {s : State} (h : s.sp.toNat = 255) : popPc s = .error (.outOfBoundsAddress 256) := by
  rw [popPc, memRead_byte, raising_bind_ok]
  exact spIncrement_error h

/-- R162: the load and the increment after it. -/
theorem exec_pop_of_register {a : Byte} (s : State) (ha : a.toNat < 8) :
    exec (.pop a) s = settle s (spIncrement (s.setReg ⟨a.toNat, ha⟩ s.top)) := by
  refine (settle_regIndex_ok s ha _).trans ?_
  rw [memRead_byte, raising_bind_ok]
  rfl

/-- An instruction that completes does so in the state `Completes` names. -/
theorem exec_of_completes {s t : State} {i : Instr} (h : Completes s i t) : exec i s = .next t := by
  cases h with
  | hlt => rfl
  | ldi v ha => exact settle_regIndex_ok s ha _
  | prn ha => exact settle_regIndex_ok s ha _
  | mul ha hb => exact aluHandler_of_registers .mul s ha hb
  | add ha hb => exact aluHandler_of_registers .add s ha hb
  | cmp ha hb => exact exec_cmp_of_registers s ha hb
  | push ha hsp =>
    refine (settle_regIndex_ok s ha _).trans ?_
    rw [spDecrement_ok hsp, raising_bind_ok, memWrite_byte, State.sp_setReg_spIndex, BitVec.ofNat_toNat,
      BitVec.setWidth_eq]
    rfl
  | pop ha hsp => rw [exec_pop_of_register s ha, spIncrement_ok hsp]; rfl
  | call ha hsp =>
    refine (settle_regIndex_ok s ha _).trans ?_
    rw [spDecrement_ok hsp, raising_bind_ok, memWrite_byte, State.sp_setReg_spIndex, raising_bind_ok]
    rfl
  | ret hsp => exact congrArg (settle s) (popPc_ok hsp)
  | jmp v hsp => exact congrArg (settle s) (popPc_ok hsp)

/-- A first register operand above 7 stops every instruction that has one (R195). -/
theorem exec_of_bad_operand {i : Instr} {a : Byte} {rest : List Byte} (s : State) (hi : i.regOperands = a :: rest)
    (ha : ¬ a.toNat < 8) : exec i s = .next (s.raise (.invalidRegisterIndex a)) := by
  cases i with
  | hlt => cases hi
  | ldi => cases hi; exact settle_regIndex_error s ha _
  | prn => cases hi; exact settle_regIndex_error s ha _
  | mul _ b => cases hi; exact aluHandler_of_bad_first .mul b s ha
  | add _ b => cases hi; exact aluHandler_of_bad_first .add b s ha
  | cmp _ b => cases hi; exact aluHandler_of_bad_first .cmp b s ha
  | push => cases hi; exact settle_regIndex_error s ha _
  | pop => cases hi; exact settle_regIndex_error s ha _
  | call => cases hi; exact settle_regIndex_error s ha _
  | ret => cases hi
  | jmp => cases hi

/-- After a legal first one, a second register operand above 7 stops the instruction (R142, R195). -/
theorem exec_of_bad_second_operand {i : Instr} {a b : Byte} (s : State) (hi : i.regOperands = [a, b])
    (ha : a.toNat < 8) (hb : ¬ b.toNat < 8) : exec i s = .next (s.raise (.invalidRegisterIndex b)) := by
  cases i with
  | mul => cases hi; exact aluHandler_of_bad_second .mul s ha hb
  | add => cases hi; exact aluHandler_of_bad_second .add s ha hb
  | cmp => cases hi; exact aluHandler_of_bad_second .cmp s ha hb
  | hlt | ldi | prn | push | pop | call | ret | jmp => cases hi

/-- An instruction that aborts raises the fault and changes nothing else (R200). -/
theorem exec_of_aborts {s : State} {i : Instr} {r : Fault} (h : Aborts s i r) : exec i s = .next (s.raise r) := by
  cases h with
  | index hi ha => exact exec_of_bad_operand s hi ha
  | secondIndex hi ha hb => exact exec_of_bad_second_operand s hi ha hb
  | push ha hsp =>
    refine (settle_regIndex_ok s ha _).trans ?_
    rw [spDecrement_error hsp, raising_bind_error, settle_error]
  | pop ha hsp => rw [exec_pop_of_register s ha, spIncrement_error hsp, settle_error]
  | call ha hsp =>
    refine (settle_regIndex_ok s ha _).trans ?_
    rw [spDecrement_error hsp, raising_bind_error, settle_error]
  | ret hsp => exact congrArg (settle s) (popPc_error hsp)
  | jmp v hsp => exact congrArg (settle s) (popPc_error hsp)

/-! ### There is no third end -/

/-- An instruction with one register operand completes or aborts if it does so when that operand is legal. -/
theorem completes_or_aborts_of_operand {i : Instr} {a : Byte} {s : State} (hi : i.regOperands = [a])
    (h : a.toNat < 8 → (∃ t, Completes s i t) ∨ ∃ r, Aborts s i r) : (∃ t, Completes s i t) ∨ ∃ r, Aborts s i r := by
  by_cases ha : a.toNat < 8
  · exact h ha
  · exact .inr ⟨_, .index hi ha⟩

/-- The same of two register operands. -/
theorem completes_or_aborts_of_operands {i : Instr} {a b : Byte} {s : State} (hi : i.regOperands = [a, b])
    (h : a.toNat < 8 → b.toNat < 8 → ∃ t, Completes s i t) : (∃ t, Completes s i t) ∨ ∃ r, Aborts s i r := by
  by_cases ha : a.toNat < 8
  · by_cases hb : b.toNat < 8
    · exact .inl (h ha hb)
    · exact .inr ⟨_, .secondIndex hi ha hb⟩
  · exact .inr ⟨_, .index hi ha⟩

/-- In every state every instruction completes or aborts. -/
theorem completes_or_aborts (i : Instr) (s : State) : (∃ t, Completes s i t) ∨ ∃ r, Aborts s i r := by
  cases i with
  | hlt => exact .inl ⟨_, .hlt⟩
  | ldi a v => exact completes_or_aborts_of_operand rfl fun ha => .inl ⟨_, .ldi v ha⟩
  | prn a => exact completes_or_aborts_of_operand rfl fun ha => .inl ⟨_, .prn ha⟩
  | mul a b => exact completes_or_aborts_of_operands rfl fun ha hb => ⟨_, .mul ha hb⟩
  | add a b => exact completes_or_aborts_of_operands rfl fun ha hb => ⟨_, .add ha hb⟩
  | cmp a b => exact completes_or_aborts_of_operands rfl fun ha hb => ⟨_, .cmp ha hb⟩
  | push a =>
    exact completes_or_aborts_of_operand rfl fun ha =>
      (eq_or_ne s.sp.toNat 0).symm.imp (⟨_, .push ha ·⟩) (⟨_, .push ha ·⟩)
  | pop a =>
    exact completes_or_aborts_of_operand rfl fun ha =>
      (eq_or_ne (s.setReg ⟨a.toNat, ha⟩ s.top).sp.toNat 255).symm.imp (⟨_, .pop ha ·⟩) (⟨_, .pop ha ·⟩)
  | call a =>
    exact completes_or_aborts_of_operand rfl fun ha =>
      (eq_or_ne s.sp.toNat 0).symm.imp (⟨_, .call ha ·⟩) (⟨_, .call ha ·⟩)
  | ret => exact (eq_or_ne s.sp.toNat 255).symm.imp (⟨_, .ret ·⟩) (⟨_, .ret ·⟩)
  | jmp v => exact (eq_or_ne s.sp.toNat 255).symm.imp (⟨_, .jmp v ·⟩) (⟨_, .jmp v ·⟩)

/-- What a handler answers: the state in which it completes, or the fault it aborts with. -/
theorem exec_cases {i : Instr} {s t : State} (h : exec i s = .next t) :
    Completes s i t ∨ ∃ r, Aborts s i r ∧ t = s.raise r := by
  rcases completes_or_aborts i s with ⟨u, hu⟩ | ⟨r, hr⟩
  · cases h.symm.trans (exec_of_completes hu)
    exact .inl hu
  · cases h.symm.trans (exec_of_aborts hr)
    exact .inr ⟨r, hr, rfl⟩

/-- Every handler answers a next state. -/
theorem exec_next (i : Instr) (s : State) : ∃ t, exec i s = .next t := by
  rcases completes_or_aborts i s with ⟨u, hu⟩ | ⟨r, hr⟩
  · exact ⟨u, exec_of_completes hu⟩
  · exact ⟨_, exec_of_aborts hr⟩

end Sys2Proof.Machine

/-! What a handler does where it completes (spec/41_hlt_ldi_prn.md to 44_control_transfer.md), and where it raises
(spec/60_exceptions.md R194, R195): the obligations about single instructions, each a constructor of `Completes` or `Aborts`
written out field by field. -/

namespace Sys2Proof.Machine

open Sys2Proof

/-! ### The updates, field by field -/

/-- Truncation to a byte is the remainder modulo 256 (spec/00_scope.md R8). -/
theorem trunc8_eq_ofNat_mod (v : Nat) : trunc8 v = BitVec.ofNat 8 (v % 256) := by
  apply BitVec.eq_of_toNat_eq
  simp [trunc8]

/-- The two writes of a push. -/
theorem State.decSp_store_eq {s : State} (v : Byte) (h : s.sp.toNat ≠ 0) :
    s.decSp.store (s.sp - 1) v =
      { s with x := s.x.set 7 (s.x[7] - 1), mem := Memory.write s.mem (s.x[7].toNat - 1) v } := by
  rw [State.store, State.toNat_sp_sub_one h]
  rfl

/-- The two writes of a pop into a register: the second is of the stack pointer as the first left it. -/
theorem State.setReg_incSp_eq {a : Byte} (s : State) (v : Byte) (ha : a.toNat < 8) :
    (s.setReg ⟨a.toNat, ha⟩ v).incSp =
      { s with x := (s.x.set a.toNat v ha).set 7 ((if a.toNat = 7 then v else s.x[7]) + 1) } := by
  rw [State.incSp, s.sp_setReg v ha]
  rfl

/-- The stack pointer that POP tests and increments, for a destination other than `x[7]`. -/
theorem State.sp_loaded_of_ne {a : Byte} (s : State) (ha : a.toNat < 8) (hne : a.toNat ≠ 7) :
    (s.setReg ⟨a.toNat, ha⟩ s.top).sp = s.x[7] :=
  (s.sp_setReg _ ha).trans (if_neg hne)

/-- The stack pointer that POP R7 tests and increments (the spec's decision D7). -/
theorem State.sp_loaded_of_eq {a : Byte} (s : State) (ha : a.toNat < 8) (h7 : a.toNat = 7) :
    (s.setReg ⟨a.toNat, ha⟩ s.top).sp = s.byteAt s.x[7].toNat :=
  (s.sp_setReg _ ha).trans (if_pos h7)

/-! ### Completion -/

/-- Settles O14: HLT checks nothing. -/
theorem hltSetsHalted : Obligations.HltSetsHalted :=
  fun _ => exec_of_completes .hlt

/-- Settles O15: a legal register is LDI's only check. -/
theorem ldiLoadsImmediate : Obligations.LdiLoadsImmediate :=
  fun _ _ v ha => exec_of_completes (.ldi v ha)

/-- Settles O16: a legal register is PRN's only check. -/
theorem prnEmitsRegister : Obligations.PrnEmitsRegister :=
  fun _ _ ha => exec_of_completes (.prn ha)

/-- Settles O17: the ALU's result is truncated to a byte. -/
theorem addAndMulAreModular : Obligations.AddAndMulAreModular := by
  intro s a b ha hb
  simp only [← trunc8_eq_ofNat_mod]
  exact ⟨exec_of_completes (.add ha hb), exec_of_completes (.mul ha hb)⟩

/-- Settles O19: the register is read after the decrement. -/
theorem pushStoresBelowStackPointer : Obligations.PushStoresBelowStackPointer := by
  intro s a ha hsp
  have hne : s.sp.toNat ≠ 0 := Nat.one_le_iff_ne_zero.1 hsp
  rw [exec_of_completes (.push ha hne), State.decSp_store_eq _ hne, State.reg_decSp]

/-- Settles O20: the increment is of what the load left in `x[7]`. -/
theorem popLoadsAndIncrements : Obligations.PopLoadsAndIncrements := by
  intro s a ha
  refine ⟨fun hne hsp => ?_, fun h7 htop => ?_⟩
  · rw [exec_of_completes (.pop ha (by rwa [s.sp_loaded_of_ne ha hne])), State.setReg_incSp_eq, if_neg hne]
    rfl
  · rw [exec_of_completes (.pop ha (by rwa [s.sp_loaded_of_eq ha h7])), State.setReg_incSp_eq, if_pos h7]
    simp only [h7, Vector.set_set]
    rfl

/-- Settles O21: the register is read after the push, which has written no register but `x[7]`. -/
theorem callPushesReturnAddress : Obligations.CallPushesReturnAddress := by
  intro s a ha hsp _
  have hne : s.sp.toNat ≠ 0 := Nat.one_le_iff_ne_zero.1 hsp
  rw [exec_of_completes (.call ha hne), State.decSp_store_eq _ hne, State.reg_decSp]
  rfl

/-- Settles O22: RET and JMP complete in the same state. -/
theorem retAndJmpPopProgramCounter : Obligations.RetAndJmpPopProgramCounter :=
  fun _ v hsp => ⟨exec_of_completes (.ret hsp), exec_of_completes (.jmp v hsp)⟩

/-! ### Raises -/

/-- Settles O25: such a kind is not supported. -/
theorem aluRejectsOtherKinds : Obligations.AluRejectsOtherKinds :=
  fun _ _ _ _ => rfl

/-- Settles O23: the listed instructions are those with a first, and those with a second, register operand. -/
theorem registerIndexAboveSevenFaults : Obligations.RegisterIndexAboveSevenFaults := by
  intro s a b
  refine ⟨fun ha i hi => ?_, fun ha hb i hi => ?_⟩
  · obtain ⟨rest, hops⟩ : ∃ rest, i.regOperands = a :: rest := by
      simp only [List.mem_cons, List.not_mem_nil, or_false] at hi
      rcases hi with rfl | rfl | rfl | rfl | rfl | rfl | rfl | rfl <;> exact ⟨_, rfl⟩
    exact exec_of_aborts (.index hops (by omega))
  · have hops : i.regOperands = [a, b] := by
      simp only [List.mem_cons, List.not_mem_nil, or_false] at hi
      rcases hi with rfl | rfl | rfl <;> rfl
    exact exec_of_aborts (.secondIndex hops (by omega) (by omega))

/-- Settles O24: for POP the stack pointer tested is the one the load left. -/
theorem stackPointerNeverWraps : Obligations.StackPointerNeverWraps := by
  intro s a v ha
  refine ⟨fun h0 => ?_, fun h255 => ?_, fun hne h255 => ?_, fun h7 htop => ?_⟩
  · exact List.forall_mem_cons.2 ⟨exec_of_aborts (.push ha h0), List.forall_mem_singleton.2 (exec_of_aborts (.call ha h0))⟩
  · exact List.forall_mem_cons.2 ⟨exec_of_aborts (.ret h255), List.forall_mem_singleton.2 (exec_of_aborts (.jmp v h255))⟩
  · exact exec_of_aborts (.pop ha (by rwa [s.sp_loaded_of_ne ha hne]))
  · exact exec_of_aborts (.pop ha (by rwa [s.sp_loaded_of_eq ha h7]))

end Sys2Proof.Machine

/-! Frames: what each handler leaves unchanged, first for all eleven together, then the obligations of the three groups. -/

namespace Sys2Proof

/-- The registers an instruction may write, by number: its destination, and `x[7]` where it moves the stack pointer. -/
def Instr.destRegs : Instr → List Nat
  | .hlt => []
  | .ldi a _ => [a.toNat]
  | .prn _ => []
  | .mul a _ => [a.toNat]
  | .add a _ => [a.toNat]
  | .cmp _ _ => []
  | .push _ => [7]
  | .pop a => [a.toNat, 7]
  | .call _ => [7]
  | .ret => [7]
  | .jmp _ => [7]

end Sys2Proof

namespace Sys2Proof.Machine

open Sys2Proof

/-! ### Memory and registers that stay -/

theorem sameMemory_of_mem_eq {s t : State} (h : t.mem = s.mem) : SameMemory s t :=
  fun a => congrArg (Memory.read · a) h

theorem SameMemory.except {s t : State} (h : SameMemory s t) (addr : Int) : SameMemoryExcept addr s t :=
  fun a _ => h a

theorem SameRegsExcept.mono {ds es : List Nat} {s t : State} (h : SameRegsExcept ds s t) (hsub : ds ⊆ es) :
    SameRegsExcept es s t :=
  fun j hj => h j fun hd => hj (hsub hd)

theorem sameRegsExcept_of_x_eq (ds : List Nat) {s t : State} (h : t.x = s.x) : SameRegsExcept ds s t :=
  fun j _ => congrArg (fun x : Vector Byte 8 => x[j.val]) h

theorem sameRegsExcept_setReg (a : Fin 8) (v : Byte) (s : State) : SameRegsExcept [a.val] s (s.setReg a v) :=
  fun j hj => State.reg_setReg_other s a j v fun h => hj (h ▸ List.mem_singleton_self _)

theorem SameRegsExcept.trans {ds es : List Nat} {s t u : State} (h : SameRegsExcept ds s t)
    (h' : SameRegsExcept es t u) : SameRegsExcept (ds ++ es) s u := by
  intro j hj
  rw [List.mem_append, not_or] at hj
  exact (h' j hj.2).trans (h j hj.1)

theorem sameRegsExcept_decSp (s : State) : SameRegsExcept [7] s s.decSp :=
  sameRegsExcept_setReg Config.spIndex _ s

theorem sameRegsExcept_incSp (s : State) : SameRegsExcept [7] s s.incSp :=
  sameRegsExcept_setReg Config.spIndex _ s

/-! ### The frame of every handler, one lemma per piece of state -/

section Handlers

variable {i : Instr} {s t : State}

/-- A handler writes no register but its destinations. -/
theorem exec_regs (h : exec i s = .next t) : SameRegsExcept i.destRegs s t := by
  rcases exec_cases h with hc | ⟨r, -, rfl⟩
  · cases hc with
    | hlt | prn | cmp => exact sameRegsExcept_of_x_eq _ rfl
    | ldi _ ha | mul ha | add ha => exact sameRegsExcept_setReg ⟨_, ha⟩ _ s
    | push | call => exact sameRegsExcept_decSp s
    | pop ha => exact (sameRegsExcept_setReg ⟨_, ha⟩ _ s).trans (sameRegsExcept_incSp _)
    | ret | jmp => exact sameRegsExcept_incSp (s.setPc s.top)
  · exact sameRegsExcept_of_x_eq _ rfl

/-- Memory changes by a completed PUSH or CALL only, in the cell below the stack pointer. -/
theorem exec_mem (h : exec i s = .next t) : t.mem = s.mem ∨
    ((∃ a, i = .push a ∨ i = .call a) ∧ s.sp.toNat ≠ 0 ∧ ∃ v, t.mem = Memory.write s.mem (s.sp - 1).toNat v) := by
  rcases exec_cases h with hc | ⟨r, -, rfl⟩
  · cases hc with
    | hlt | ldi | prn | mul | add | cmp | pop | ret | jmp => exact .inl rfl
    | @push a _ hsp => exact .inr ⟨⟨a, .inl rfl⟩, hsp, _, rfl⟩
    | @call a _ hsp => exact .inr ⟨⟨a, .inr rfl⟩, hsp, _, rfl⟩
  · exact .inl rfl

/-- The flags change by a completed CMP only, to a comparison's byte. -/
theorem exec_fl (h : exec i s = .next t) : t.fl = s.fl ∨
    ((∃ a b, i = .cmp a b) ∧ (t.fl = 0x04 ∨ t.fl = 0x02 ∨ t.fl = 0x01)) := by
  rcases exec_cases h with hc | ⟨r, -, rfl⟩
  · cases hc with
    | hlt | ldi | prn | mul | add | push | pop | call | ret | jmp => exact .inl rfl
    | @cmp a b => exact .inr ⟨⟨a, b, rfl⟩, (cmpFlags_oneHot _ _).1⟩
  · exact .inl rfl

/-- The output trace changes by a completed PRN only, which appends its register. -/
theorem exec_out (h : exec i s = .next t) : t.out = s.out ∨
    ∃ (a : Byte) (ha : a.toNat < 8), i = .prn a ∧ t.out = s.out ++ [s.reg ⟨a.toNat, ha⟩] := by
  rcases exec_cases h with hc | ⟨r, -, rfl⟩
  · cases hc with
    | hlt | ldi | mul | add | cmp | push | pop | call | ret | jmp => exact .inl rfl
    | @prn a ha => exact .inr ⟨a, ha, rfl, rfl⟩
  · exact .inl rfl

/-- A completed instruction other than HLT leaves the status. -/
theorem Completes.status (h : Completes s i t) : t.status = s.status ∨ (i = .hlt ∧ t.status = .halted) := by
  cases h with
  | hlt => exact .inr ⟨rfl, rfl⟩
  | ldi | prn | mul | add | cmp | push | pop | call | ret | jmp => exact .inl rfl

theorem Completes.status_eq (h : Completes s i t) (hi : i ≠ .hlt) : t.status = s.status :=
  h.status.resolve_right fun hh => hi hh.1

theorem exec_mem_eq (h : exec i s = .next t) (hpush : ∀ a, i ≠ .push a) (hcall : ∀ a, i ≠ .call a) : t.mem = s.mem := by
  rcases exec_mem h with hm | ⟨⟨a, hi⟩, -⟩
  · exact hm
  · exact absurd hi (by simp [hpush, hcall])

theorem exec_fl_eq (h : exec i s = .next t) (hi : ∀ a b, i ≠ .cmp a b) : t.fl = s.fl := by
  rcases exec_fl h with hf | ⟨⟨a, b, hcmp⟩, -⟩
  · exact hf
  · exact absurd hcmp (hi a b)

theorem exec_out_eq (h : exec i s = .next t) (hi : ∀ a, i ≠ .prn a) : t.out = s.out := by
  rcases exec_out h with ho | ⟨a, -, hprn, -⟩
  · exact ho
  · exact absurd hprn (hi a)

/-- A handler whose opcode leaves `pc` to the advance does not write it (R116). -/
theorem exec_pc (h : exec i s = .next t) (hpc : opcodeSetsPc i.opcode = false) : t.pc = s.pc := by
  rw [(encoding_statement i).2.2] at hpc
  exact (exec_ignoresPc i (by rintro a rfl; cases hpc) (by rintro rfl; cases hpc) (by rintro v rfl; cases hpc)).pc_eq h

/-- Every byte but the one at the push address reads as before. -/
theorem exec_sameMemoryExcept (h : exec i s = .next t) : SameMemoryExcept (pushAddress s) s t := by
  rcases exec_mem h with hm | ⟨-, hsp, v, hm⟩
  · exact (sameMemory_of_mem_eq hm).except _
  · intro a ha
    rw [State.toNat_sp_sub_one hsp] at hm
    have hne : a ≠ s.sp.toNat - 1 := by unfold pushAddress at ha; omega
    exact (congrArg (Memory.read · a) hm).trans (Memory.read_write_other s.mem _ a v hne)

/-- A register operand above 7 makes the instruction ill-formed. -/
theorem wellFormed_eq_false {v : Byte} (hv : v ∈ i.regOperands) (h : ¬ v.toNat < 8) : i.wellFormed = false := by
  rw [i.wellFormed_eq_all, List.all_eq_false]
  exact ⟨v, hv, by simpa [isRegByte] using h⟩

/-- An instruction aborts on an illegal register operand, or it is one that moves the stack pointer. -/
theorem Aborts.illFormed_or_moves_sp {r : Fault} (h : Aborts s i r) :
    i.wellFormed = false ∨ ∃ a, i ∈ [Instr.push a, .call a, .pop a, .ret, .jmp a] := by
  cases h with
  | index hi ha => exact .inl (wellFormed_eq_false (by simp [hi]) ha)
  | secondIndex hi _ hb => exact .inl (wellFormed_eq_false (by simp [hi]) hb)
  | @push a | @pop a | @call a => exact .inr ⟨a, by simp⟩
  | ret => exact .inr ⟨0, by simp⟩
  | jmp v => exact .inr ⟨v, by simp⟩

end Handlers

/-! ### The obligations of the three groups -/

/-- Settles O27: none of the six instructions writes memory or `pc`; of the other pieces of state each leaves those that
another instruction alone writes. -/
theorem registerInstructionsFrame : Obligations.RegisterInstructionsFrame := by
  intro s t a b
  refine ⟨fun i hi h => ⟨?_, ?_, ?_, ?_⟩, fun i hi h => ?_, fun i hi h => ?_, fun i hi h => ?_, fun i hi h hw => ?_⟩
  · exact sameMemory_of_mem_eq (exec_mem_eq h (by rintro c rfl; simp at hi) (by rintro c rfl; simp at hi))
  · have hpc : opcodeSetsPc i.opcode = false := by
      rw [(encoding_statement i).2.2]
      simp only [List.mem_cons, List.not_mem_nil, or_false] at hi
      rcases hi with rfl | rfl | rfl | rfl | rfl | rfl <;> rfl
    exact exec_pc h hpc
  · refine (exec_regs h).mono ?_
    simp only [List.mem_cons, List.not_mem_nil, or_false] at hi
    rcases hi with rfl | rfl | rfl | rfl | rfl | rfl <;> simp [Instr.destRegs]
  · rcases exec_out h with ho | ⟨c, hc, -, ho⟩
    · exact ⟨[], by rw [ho, List.append_nil]⟩
    · exact ⟨_, ho.symm⟩
  · refine (exec_regs h).mono ?_
    simp only [List.mem_cons, List.not_mem_nil, or_false] at hi
    rcases hi with rfl | rfl | rfl <;> simp [Instr.destRegs]
  · exact exec_fl_eq h (by rintro c d rfl; simp at hi)
  · exact exec_out_eq h (by rintro c rfl; simp at hi)
  · rcases exec_cases h with hc | ⟨r, hr, -⟩
    · exact hc.status_eq (by rintro rfl; simp at hi)
    · rcases hr.illFormed_or_moves_sp with hill | ⟨c, hc⟩
      · exact absurd hw (by simp [hill])
      · simp only [List.mem_cons, List.not_mem_nil, or_false] at hc
        rcases hc with rfl | rfl | rfl | rfl | rfl <;> simp at hi

/-- PUSH and CALL abort on an illegal operand or at stack pointer 0 only. -/
theorem Aborts.push_or_call {s : State} {i : Instr} {r : Fault} {a : Byte} (h : Aborts s i r)
    (hi : i = .push a ∨ i = .call a) : ¬ a.toNat < 8 ∨ s.sp.toNat = 0 := by
  cases h with
  | index hops ha => rcases hi with rfl | rfl <;> cases hops <;> exact .inl ha
  | secondIndex hops => rcases hi with rfl | rfl <;> cases hops
  | push _ hsp | call _ hsp => exact .inr hsp
  | pop | ret | jmp => simp at hi

/-- Settles O28: the one cell is the push address of the state before. -/
theorem stackStoresFrame : Obligations.StackStoresFrame := by
  intro s t a
  refine ⟨fun i hi h => ?_, fun h => exec_pc h (encoding_statement (.push a)).2.2⟩
  have hia : i = .push a ∨ i = .call a := by simpa using hi
  refine ⟨exec_sameMemoryExcept h, ?_, ?_, ?_, fun ha hsp => ?_⟩
  · rcases hia with rfl | rfl <;> exact exec_regs h
  · exact exec_fl_eq h (by rintro c d rfl; simp at hi)
  · exact exec_out_eq h (by rintro c rfl; simp at hi)
  · rcases exec_cases h with hc | ⟨r, hr, -⟩
    · exact hc.status_eq (by rintro rfl; simp at hi)
    · rcases hr.push_or_call hia with hill | h0
      · exact absurd ha hill
      · exact absurd h0 (Nat.one_le_iff_ne_zero.1 hsp)

/-- Settles O29: the three instructions only read memory. -/
theorem stackLoadsFrame : Obligations.StackLoadsFrame := by
  intro s t a
  refine ⟨fun i hi h => ⟨?_, ?_, ?_, ?_, ?_⟩, fun i hi h => ?_, fun h => exec_pc h (encoding_statement (.pop a)).2.2⟩
  · exact sameMemory_of_mem_eq (exec_mem_eq h (by rintro c rfl; simp at hi) (by rintro c rfl; simp at hi))
  · refine (exec_regs h).mono ?_
    simp only [List.mem_cons, List.not_mem_nil, or_false] at hi
    rcases hi with rfl | rfl | rfl <;> simp [Instr.destRegs]
  · exact exec_fl_eq h (by rintro c d rfl; simp at hi)
  · exact exec_out_eq h (by rintro c rfl; simp at hi)
  · rcases exec_cases h with hc | ⟨r, -, rfl⟩
    · exact .inl (hc.status_eq (by rintro rfl; simp at hi))
    · exact .inr ⟨r, rfl⟩
  · simp only [List.mem_cons, List.not_mem_nil, or_false] at hi
    rcases hi with rfl | rfl <;> exact exec_regs h

end Sys2Proof.Machine

/-! The whole cycle (spec/40_dispatch_cycle.md R111 to R121): the four ways in which it can end, each step from a running
state being one of them, and each instruction's rule over one cycle. -/

namespace Sys2Proof.Machine

open Sys2Proof Sys2Proof.Laws.Encoding

/-! ### The advance after an instruction that has completed -/

@[simp] theorem advance_raise (ir : Byte) (s : State) (r : Fault) : advance ir (s.raise r) = s.raise r := by
  rw [advance_eq, if_pos (.inl rfl)]

/-- A machine that runs is not stopped by an instruction that completes. -/
theorem Completes.not_faulted {i : Instr} {s u : State} (hc : Completes s i u) (hs : s.status = .running) :
    ¬ u.status.isFaulted = true := by
  rcases hc.status with h | ⟨-, h⟩
  · rw [h, hs]; nofun
  · rw [h]; nofun

/-- The advance, by the columns of R27: none, to `pc` plus the length, or the fault at 256 (the spec's decision D4). -/
theorem Completes.advance_eq {i : Instr} {s u : State} (hc : Completes s i u) (hs : s.status = .running) :
    advance i.opcode u =
      if tableSetsPc i = true then u
      else if s.pc.toNat + tableLength i ≤ 255 then u.setPc (s.pc + BitVec.ofNat 8 (tableLength i))
      else u.raise (.outOfBoundsAddress (s.pc.toNat + tableLength i : Nat)) := by
  obtain ⟨-, hlen, hset⟩ := encoding_statement i
  by_cases hpc : tableSetsPc i = true
  · rw [if_pos hpc, advance_of_setsPc u (hset.trans hpc)]
  · have hupc : u.pc = s.pc := exec_pc (exec_of_completes hc) (hset.trans (Bool.eq_false_of_not_eq_true hpc))
    have hneither : ¬(u.status.isFaulted = true ∨ opcodeSetsPc i.opcode = true) :=
      fun h => h.elim (hc.not_faulted hs) fun h => hpc (hset.symm.trans h)
    rw [Machine.advance_eq, if_neg hneither, if_neg hpc, hlen, hupc, BitVec.ofNat_add, BitVec.ofNat_toNat,
      BitVec.setWidth_eq]

/-! ### The four ends of a cycle -/

/-- How a cycle of a running machine ends: the fetch faults, the byte is no opcode, the handler aborts, or it completes and
the advance follows. -/
inductive CycleEnds (s : State) : State → Prop
  | fetchFault (hpc : 254 ≤ s.pc.toNat) : CycleEnds s (s.raise (.outOfBoundsAddress 256))
  | unrecognized {ir opa opb : Byte} (hf : s.Fetches ir opa opb) (hir : opcodeMap.lookup ir = none) :
      CycleEnds s (s.raise (.unrecognizedOpcode ir))
  | aborts {opa opb : Byte} {i : Instr} {r : Fault} (hf : s.Fetches i.opcode opa opb)
      (hd : decode i.opcode opa opb = .ok i) (hr : Aborts s i r) : CycleEnds s (s.raise r)
  | completes {opa opb : Byte} {i : Instr} {u : State} (hf : s.Fetches i.opcode opa opb)
      (hd : decode i.opcode opa opb = .ok i) (hc : Completes s i u) : CycleEnds s (advance i.opcode u)

/-- A fetch at 254 or 255 faults (R112). -/
theorem fetch_error {s : State} (h : 254 ≤ s.pc.toNat) : fetch s = .error (.outOfBoundsAddress 256) := by
  rw [fetch_eq, if_neg (by omega)]

/-- Each end is the step's answer. -/
theorem CycleEnds.step {s t : State} (hs : s.status = .running) (h : CycleEnds s t) : step s = .next t := by
  cases h with
  | fetchFault hpc => exact (step_running hs).trans (cycle_of_fetch_error (fetch_error hpc))
  | unrecognized hf hir => exact step_of_fetches_decode_error hf (by rw [decode, hir])
  | aborts hf hd hr => rw [step_of_fetches_decode hf hd, exec_of_aborts hr, finishCycle_next, advance_raise]
  | completes hf hd hc => rw [step_of_fetches_decode hf hd, exec_of_completes hc, finishCycle_next]

/-- A cycle of a running machine has one of the ends. -/
theorem exists_cycleEnds {s : State} (hs : s.status = .running) : ∃ t, CycleEnds s t := by
  by_cases hpc : s.pc.toNat ≤ 253
  · have hf : s.Fetches (s.byteAt s.pc.toNat) (s.byteAt (s.pc.toNat + 1)) (s.byteAt (s.pc.toNat + 2)) :=
      ⟨hs, hpc, rfl, rfl, rfl⟩
    match hd : decode (s.byteAt s.pc.toNat) (s.byteAt (s.pc.toNat + 1)) (s.byteAt (s.pc.toNat + 2)) with
    | .ok i =>
      rw [← (eq_encode_of_decode hd).1] at hf hd
      rcases completes_or_aborts i s with ⟨u, hc⟩ | ⟨r, hr⟩
      · exact ⟨_, .completes hf hd hc⟩
      · exact ⟨_, .aborts hf hd hr⟩
    | .error e =>
      refine ⟨_, .unrecognized hf ?_⟩
      unfold decode at hd
      split at hd
      · cases hd
      · assumption
  · exact ⟨_, .fetchFault (by omega)⟩

/-- A step of a running machine has one of the ends. -/
theorem step_cases {s t : State} (hs : s.status = .running) (h : step s = .next t) : CycleEnds s t := by
  obtain ⟨u, hu⟩ := exists_cycleEnds hs
  cases h.symm.trans (hu.step hs)
  exact hu

/-- Settles O9: the first of the ends of a cycle. -/
theorem fetchPastTopFaults : Obligations.FetchPastTopFaults :=
  fun _ hs hpc => (CycleEnds.fetchFault hpc).step hs

/-- Settles O11: outside `Running` the step does nothing, and a cycle has one of its ends. -/
theorem everyStepAnswersNext : Obligations.EveryStepAnswersNext := by
  intro s
  by_cases hs : s.status = .running
  · obtain ⟨t, ht⟩ := exists_cycleEnds hs
    exact ⟨t, ht.step hs⟩
  · exact ⟨s, step_ended hs⟩

/-! ### One cycle of an instruction -/

section Cycles

variable {s u : State} {i : Instr} {opa opb : Byte}

/-- A fetched instruction that aborts. -/
theorem step_of_aborts {r : Fault} (hf : s.Fetches i.opcode opa opb) (hd : decode i.opcode opa opb = .ok i)
    (hr : Aborts s i r) : step s = .next (s.raise r) :=
  (CycleEnds.aborts hf hd hr).step hf.1

/-- A fetched instruction that completes, by the columns of R27. -/
theorem step_of_completes (hf : s.Fetches i.opcode opa opb) (hd : decode i.opcode opa opb = .ok i)
    (hc : Completes s i u) : step s = .next
      (if tableSetsPc i = true then u
      else if s.pc.toNat + tableLength i ≤ 255 then u.setPc (s.pc + BitVec.ofNat 8 (tableLength i))
      else u.raise (.outOfBoundsAddress (s.pc.toNat + tableLength i : Nat))) := by
  rw [← hc.advance_eq hf.1]
  exact (CycleEnds.completes hf hd hc).step hf.1

/-- CALL, RET and JMP: no advance. -/
theorem step_of_jump (hf : s.Fetches i.opcode opa opb) (hd : decode i.opcode opa opb = .ok i) (hc : Completes s i u)
    (hset : tableSetsPc i = true) : step s = .next u := by
  rw [step_of_completes hf hd hc, if_pos hset]

/-- An instruction of at most two bytes: the advance fits, since the fetch did. -/
theorem step_of_short (hf : s.Fetches i.opcode opa opb) (hd : decode i.opcode opa opb = .ok i) (hc : Completes s i u)
    (hset : ¬ tableSetsPc i = true) (hlen : tableLength i ≤ 2) :
    step s = .next (u.setPc (s.pc + BitVec.ofNat 8 (tableLength i))) := by
  have hpc : s.pc.toNat ≤ 253 := hf.2.1
  rw [step_of_completes hf hd hc, if_neg hset, if_pos (by omega)]

/-- LDI, MUL, ADD and CMP: the advance faults at 253, with what the handler did kept (the spec's decision D4). -/
theorem step_of_three_bytes (hf : s.Fetches i.opcode opa opb) (hd : decode i.opcode opa opb = .ok i)
    (hc : Completes s i u) (hset : ¬ tableSetsPc i = true) (hlen : tableLength i = 3) :
    step s = .next (if s.pc.toNat = 253 then u.raise (.outOfBoundsAddress 256) else u.setPc (s.pc + 3)) := by
  have hpc : s.pc.toNat ≤ 253 := hf.2.1
  rw [step_of_completes hf hd hc, if_neg hset, hlen]
  by_cases h253 : s.pc.toNat = 253
  · rw [if_pos h253, if_neg (by omega), h253]
    rfl
  · rw [if_neg h253, if_pos (by omega)]
    rfl

/-- An instruction with one register operand: it is enough to say what happens when that operand is legal. -/
theorem step_of_operand {a : Byte} {g : a.toNat < 8 → State} (hf : s.Fetches i.opcode opa opb)
    (hd : decode i.opcode opa opb = .ok i) (hops : i.regOperands = [a]) (h : ∀ ha, step s = .next (g ha)) :
    step s = .next (if ha : a.toNat < 8 then g ha else s.raise (.invalidRegisterIndex a)) := by
  by_cases ha : a.toNat < 8
  · rw [dif_pos ha, h ha]
  · rw [dif_neg ha, step_of_aborts hf hd (.index hops ha)]

/-- The same of two register operands, the first one checked first. -/
theorem step_of_operands {a b : Byte} {g : a.toNat < 8 → b.toNat < 8 → State} (hf : s.Fetches i.opcode opa opb)
    (hd : decode i.opcode opa opb = .ok i) (hops : i.regOperands = [a, b]) (h : ∀ ha hb, step s = .next (g ha hb)) :
    step s = .next
      (if ha : a.toNat < 8 then
        if hb : b.toNat < 8 then g ha hb else s.raise (.invalidRegisterIndex b)
      else s.raise (.invalidRegisterIndex a)) := by
  by_cases ha : a.toNat < 8
  · by_cases hb : b.toNat < 8
    · rw [dif_pos ha, dif_pos hb, h ha hb]
    · rw [dif_pos ha, dif_neg hb, step_of_aborts hf hd (.secondIndex hops ha hb)]
  · rw [dif_neg ha, step_of_aborts hf hd (.index hops ha)]

end Cycles

/-- Settles O7: where `pc` is not the handler's, the advance starts from the `pc` of the fetch. -/
theorem stepRunsDecodedInstruction : Obligations.StepRunsDecodedInstruction := by
  intro s ir opa opb i hf hd
  obtain ⟨t, ht⟩ := exec_next i s
  refine ⟨t, ht, ?_⟩
  obtain ⟨rfl, -⟩ := eq_encode_of_decode hd
  have hlen : opcodeLength i.opcode = (i.opcode.extractLsb' 6 2).toNat + 1 :=
    congrArg (· + 1) (bitField_eq_extractLsb' i.opcode 6 2)
  have hle : opcodeLength i.opcode ≤ 3 := by
    rw [(encoding_statement i).2.1]
    cases i <;> simp [tableLength]
  have hpc : s.pc.toNat ≤ 253 := hf.2.1
  rw [step_of_fetches_decode hf hd, ht, finishCycle_next, advance_eq, opcodeSetsPc_eq_getLsbD, ← hlen]
  by_cases hfault : t.status.isFaulted = true
  · rw [if_pos (.inl hfault), if_pos hfault]
  · by_cases hset : i.opcode.getLsbD 4 = true
    · rw [if_pos (.inr hset), if_neg hfault, if_pos hset]
    · have htpc : t.pc = s.pc :=
        exec_pc ht ((opcodeSetsPc_eq_getLsbD i.opcode).trans (Bool.eq_false_of_not_eq_true hset))
      rw [← htpc] at hpc ⊢
      rw [if_neg (fun h => h.elim hfault hset), if_neg hfault, if_neg hset]
      by_cases hfit : t.pc.toNat + opcodeLength i.opcode ≤ 255
      · rw [if_pos hfit, if_pos hfit]
        rfl
      · rw [if_neg hfit, if_neg hfit, show t.pc.toNat + opcodeLength i.opcode = 256 by omega]
        rfl

/-! ### Each instruction's rule -/

/-- Settles O31: three bytes, one register operand. -/
theorem ldiCycle : Obligations.LdiCycle := fun _ a v hf =>
  step_of_operand (i := .ldi a v) hf rfl rfl fun ha => step_of_three_bytes (i := .ldi a v) hf rfl (.ldi v ha) nofun rfl

/-- Settles O32: two bytes, one register operand. -/
theorem prnCycle : Obligations.PrnCycle := fun _ a _ hf =>
  step_of_operand (i := .prn a) hf rfl rfl fun ha => step_of_short (i := .prn a) hf rfl (.prn ha) nofun le_rfl

/-- Settles O33: three bytes, two register operands. -/
theorem mulCycle : Obligations.MulCycle := by
  intro s a b hf
  simp only [← trunc8_eq_ofNat_mod]
  exact step_of_operands (i := .mul a b) hf rfl rfl fun ha hb =>
    step_of_three_bytes (i := .mul a b) hf rfl (.mul ha hb) nofun rfl

/-- Settles O34: three bytes, two register operands. -/
theorem addCycle : Obligations.AddCycle := by
  intro s a b hf
  simp only [← trunc8_eq_ofNat_mod]
  exact step_of_operands (i := .add a b) hf rfl rfl fun ha hb =>
    step_of_three_bytes (i := .add a b) hf rfl (.add ha hb) nofun rfl

/-- The comparison of the bytes is that of their values (R145: unsigned). -/
theorem cmpFlags_eq_ite (va vb : Byte) :
    cmpFlags va vb = if va = vb then 0b00000100 else if va < vb then 0b00000010 else 0b00000001 := by
  simp only [cmpFlags, BitVec.toNat_inj, BitVec.lt_def]
  rfl

/-- Settles O35: three bytes, two register operands. -/
theorem cmpCycle : Obligations.CmpCycle := by
  intro s a b hf
  simp only [← cmpFlags_eq_ite]
  exact step_of_operands (i := .cmp a b) hf rfl rfl fun ha hb =>
    step_of_three_bytes (i := .cmp a b) hf rfl (.cmp ha hb) nofun rfl

/-- Settles O36: the register is read after the decrement. -/
theorem pushCycle : Obligations.PushCycle := by
  intro s a b hf
  refine step_of_operand (i := .push a) hf rfl rfl fun ha => ?_
  by_cases hsp : s.x[7].toNat = 0
  · rw [if_pos hsp]
    exact step_of_aborts (i := .push a) hf rfl (.push ha hsp)
  · rw [if_neg hsp, step_of_short (i := .push a) hf rfl (.push ha hsp) nofun le_rfl, State.decSp_store_eq _ hsp]
    rfl

/-- Settles O37: the range test is of the stack pointer that the load left. -/
theorem popCycle : Obligations.PopCycle := by
  intro s a b hf
  refine step_of_operand (i := .pop a) hf rfl rfl fun ha => ?_
  have hsp : (s.setReg ⟨a.toNat, ha⟩ s.top).sp = if a.toNat = 7 then s.byteAt s.x[7].toNat else s.x[7] :=
    s.sp_setReg s.top ha
  have hlt := (s.setReg ⟨a.toNat, ha⟩ s.top).sp.isLt
  simp only [← hsp]
  by_cases htop : (s.setReg ⟨a.toNat, ha⟩ s.top).sp.toNat = 255
  · rw [if_pos (by omega)]
    exact step_of_aborts (i := .pop a) hf rfl (.pop ha htop)
  · rw [if_neg (by omega)]
    exact step_of_short (i := .pop a) hf rfl (.pop ha htop) nofun le_rfl

/-- The return address as a byte. -/
theorem ofNat_returnAddress (s : State) : BitVec.ofNat 8 (returnAddress s) = s.pc + 2 := by
  rw [returnAddress, BitVec.ofNat_add, BitVec.ofNat_toNat, BitVec.setWidth_eq]
  rfl

/-- Settles O38: the operand is the latched byte, and the register is read after the decrement. -/
theorem callCycle : Obligations.CallCycle := by
  intro s a b hf
  refine step_of_operand (i := .call a) hf rfl rfl fun ha => ?_
  by_cases hsp : s.x[7].toNat = 0
  · rw [if_pos hsp]
    exact step_of_aborts (i := .call a) hf rfl (.call ha hsp)
  · rw [if_neg hsp, step_of_jump (i := .call a) hf rfl (.call ha hsp) rfl, State.decSp_store_eq _ hsp,
      ofNat_returnAddress]
    rfl

/-- Settles O39: RET and JMP abort, and complete, alike. -/
theorem retAndJmpCycle : Obligations.RetAndJmpCycle := by
  intro s ir a b hir hf
  have hlt := s.x[7].isLt
  by_cases hsp : s.x[7].toNat = 255
  · rw [if_pos (by omega)]
    rcases hir with rfl | rfl
    · exact step_of_aborts (i := .ret) hf rfl (.ret hsp)
    · exact step_of_aborts (i := .jmp a) hf rfl (.jmp a hsp)
  · rw [if_neg (by omega)]
    rcases hir with rfl | rfl
    · exact step_of_jump (i := .ret) hf rfl (.ret hsp) rfl
    · exact step_of_jump (i := .jmp a) hf rfl (.jmp a hsp) rfl

end Sys2Proof.Machine

/-! Rules of the whole machine, from the four ends of a cycle: precise faults (spec/60_exceptions.md), the transitions of
`status`, the only writers of `fl`, `out` and memory, what steers nothing, and the invariant. -/

namespace Sys2Proof.Machine

open Sys2Proof Sys2Proof.Laws.Encoding

/-! ### What the advance leaves alone -/

section Advance

variable (ir : Byte) (s : State)

/-- The advance writes `pc`, or raises, or does nothing. -/
theorem advance_cases : advance ir s = s ∨ (∃ v, advance ir s = s.setPc v) ∨ ∃ r, advance ir s = s.raise r := by
  rw [advance_eq]
  split
  · exact .inl rfl
  · split
    · exact .inr (.inl ⟨_, rfl⟩)
    · exact .inr (.inr ⟨_, rfl⟩)

@[simp] theorem advance_mem : (advance ir s).mem = s.mem := by
  rcases advance_cases ir s with h | ⟨v, h⟩ | ⟨r, h⟩ <;> rw [h] <;> rfl

@[simp] theorem advance_fl : (advance ir s).fl = s.fl := by
  rcases advance_cases ir s with h | ⟨v, h⟩ | ⟨r, h⟩ <;> rw [h] <;> rfl

@[simp] theorem advance_out : (advance ir s).out = s.out := by
  rcases advance_cases ir s with h | ⟨v, h⟩ | ⟨r, h⟩ <;> rw [h] <;> rfl

end Advance

/-- After an instruction that has completed, the advance keeps the status, or it is the advance fault of a three-byte
instruction at 253 (the spec's decision D4). -/
theorem Completes.advance_status {i : Instr} {s u : State} (hc : Completes s i u) (hs : s.status = .running)
    (hpc : s.pc.toNat ≤ 253) : (advance i.opcode u).status = u.status ∨
      (s.pc.toNat = 253 ∧ tableLength i = 3 ∧ advance i.opcode u = u.raise (.outOfBoundsAddress 256)) := by
  have hle : tableLength i ≤ 3 := by cases i <;> simp [tableLength]
  rw [hc.advance_eq hs]
  split
  · exact .inl rfl
  · split
    · exact .inl rfl
    · refine .inr ⟨by omega, by omega, ?_⟩
      rw [show s.pc.toNat + tableLength i = 256 by omega]
      rfl

/-! ### What one cycle can have done -/

/-- A step changes the state in a cycle that completes an instruction, or by a raise alone. -/
theorem step_effect {s t : State} (h : step s = .next t) : t = s ∨ (∃ r, t = s.raise r) ∨
    ∃ (i : Instr) (opa opb : Byte) (u : State), s.Fetches i.opcode opa opb ∧ decode i.opcode opa opb = .ok i ∧
      exec i s = .next u ∧ t = advance i.opcode u := by
  by_cases hs : s.status = .running
  · cases step_cases hs h with
    | fetchFault | unrecognized | aborts => exact .inr (.inl ⟨_, rfl⟩)
    | completes hf hd hc => exact .inr (.inr ⟨_, _, _, _, hf, hd, exec_of_completes hc, rfl⟩)
  · cases (step_ended hs).symm.trans h
    exact .inl rfl

/-- Settles O40: of the handlers CMP's alone writes `fl`, and the advance does not. -/
theorem flagsWrittenOnlyByCmp : Obligations.FlagsWrittenOnlyByCmp := by
  intro s t h hne
  rcases step_effect h with rfl | ⟨r, rfl⟩ | ⟨i, opa, opb, u, hf, -, hu, rfl⟩
  · exact absurd rfl hne
  · exact absurd rfl hne
  · rw [advance_fl] at hne ⊢
    rcases exec_fl hu with hsame | ⟨⟨a, b, rfl⟩, hflag⟩
    · exact absurd hsame hne
    · obtain ⟨hs, hpc, hop, -⟩ := hf
      exact ⟨hs, hpc, hop, by tauto⟩

/-- Settles O42: of the handlers PRN's alone writes `out`, and the register it emits is the one the fetched byte names. -/
theorem outputGrowsOnlyByPrn : Obligations.OutputGrowsOnlyByPrn := by
  intro s t h
  rcases step_effect h with rfl | ⟨r, rfl⟩ | ⟨i, opa, opb, u, hf, hd, hu, rfl⟩
  · exact .inl rfl
  · exact .inl rfl
  · rw [advance_out]
    rcases exec_out hu with hsame | ⟨a, ha, rfl, hout⟩
    · exact .inl hsame
    · obtain ⟨hs, hpc, hop, hopa, -⟩ := hf
      have hdecoded : Except.ok (Instr.prn opa) = (.ok (.prn a) : Except DecodeError Instr) := hd
      cases hdecoded
      exact .inr ⟨hs, hpc, hop, ⟨opa.toNat, ha⟩, congrArg BitVec.toNat hopa, hout⟩

/-- Settles O43: of the handlers PUSH's and CALL's alone write memory, in the cell of the push address. -/
theorem memoryWrittenOnlyByPushAndCall : Obligations.MemoryWrittenOnlyByPushAndCall := by
  intro s t h
  rcases step_effect h with rfl | ⟨r, rfl⟩ | ⟨i, opa, opb, u, hf, -, hu, rfl⟩
  · exact .inl rfl
  · exact .inl rfl
  · rw [advance_mem]
    rcases exec_mem hu with hsame | ⟨⟨a, hi⟩, hsp, -⟩
    · exact .inl hsame
    · obtain ⟨hs, hpc, hop, -⟩ := hf
      have hop' : i.opcode = 0x45 ∨ i.opcode = 0x50 := by
        rcases hi with rfl | rfl
        · exact .inl rfl
        · exact .inr rfl
      refine .inr ⟨hs, hpc, hop ▸ hop', Nat.one_le_iff_ne_zero.2 hsp, fun b hb => ?_⟩
      exact (congrArg (Memory.read · b) (advance_mem i.opcode u)).trans (exec_sameMemoryExcept hu b hb)

/-! ### Faults and statuses -/

/-- Settles O13: a raise before the advance leaves the state; after a completed instruction only the advance can raise. -/
theorem faultingCycleIsPrecise : Obligations.FaultingCycleIsPrecise := by
  intro s t r hs h hr
  cases step_cases hs h with
  | fetchFault | unrecognized | aborts => cases hr; exact .inl rfl
  | @completes opa opb i u hf hd hc =>
    obtain ⟨-, hpc, hop, hopa, hopb⟩ := hf
    rcases hc.advance_status hs hpc with hkept | ⟨h253, hlen, hadv⟩
    · have hfault : u.status = .faulted r := hkept.symm.trans hr
      exact absurd (by rw [hfault]; rfl) (hc.not_faulted hs)
    · rw [h253] at hop hopa hopb
      rw [hadv] at hr ⊢
      cases hr
      have hbyte : i.opcode ∈ [(0x82 : Byte), 0xA2, 0xA0, 0xA7] := by
        cases i <;> simp [tableLength, Instr.opcode] at hlen ⊢
      have hrun : u.status = .running := (hc.status_eq (by rintro rfl; cases hlen)).trans hs
      exact .inr ⟨h253, hop ▸ hbyte, rfl, i, u, by rw [hop, hopa, hopb, hd], exec_of_completes hc, hrun, rfl⟩

/-- A fault that a handler aborts with has a datum its cause allows. -/
theorem Aborts.legal {s : State} {i : Instr} {r : Fault} (h : Aborts s i r) : r.legal = true := by
  cases h with
  | index _ ha => exact decide_eq_true (by omega)
  | secondIndex _ _ hb => exact decide_eq_true (by omega)
  | push | pop | call | ret | jmp => rfl

/-- After a step of a running machine the status is `Running`, `Halted` by a fetched HLT, or a legal fault. -/
theorem step_status {s t : State} (hs : s.status = .running) (h : step s = .next t) :
    t.status = .running ∨ (t.status = .halted ∧ s.byteAt s.pc.toNat = 0x01) ∨
      ∃ r, t.status = .faulted r ∧ r.legal = true := by
  cases step_cases hs h with
  | fetchFault => exact .inr (.inr ⟨_, rfl, rfl⟩)
  | unrecognized _ hir => exact .inr (.inr ⟨_, rfl, Option.isNone_iff_eq_none.2 hir⟩)
  | aborts _ _ hr => exact .inr (.inr ⟨_, rfl, hr.legal⟩)
  | @completes opa opb i u hf hd hc =>
    obtain ⟨-, hpc, hop, -⟩ := hf
    rcases hc.advance_status hs hpc with hkept | ⟨-, -, hadv⟩
    · rcases hc.status with hsame | ⟨rfl, hhalt⟩
      · exact .inl ((hkept.trans hsame).trans hs)
      · exact .inr (.inl ⟨hkept.trans hhalt, hop⟩)
    · exact .inr (.inr ⟨_, by rw [hadv]; rfl, rfl⟩)

/-- Settles O26: an ALU kind is no legal datum. -/
theorem noStepRaisesUnsupportedAluOperation : Obligations.NoStepRaisesUnsupportedAluOperation := by
  intro s t k hs h hk
  rcases step_status hs h with hr | ⟨hr, -⟩ | ⟨r, hr, hlegal⟩
  · cases hr.symm.trans hk
  · cases hr.symm.trans hk
  · cases hr.symm.trans hk
    cases hlegal

/-- A running machine never steps to `Idle`. -/
theorem step_not_idle {s t : State} (hs : s.status = .running) (h : step s = .next t) : t.status ≠ .idle := by
  rcases step_status hs h with hr | ⟨hr, -⟩ | ⟨r, hr, -⟩ <;> rw [hr] <;> nofun

/-- Settles O30: HLT's handler sets `Halted`, its advance fits wherever its fetch does, and no other cycle halts. -/
theorem hltCycle : Obligations.HltCycle := by
  intro s hs
  refine ⟨fun hop => ⟨fun hpc => ⟨?_, step_ended nofun⟩, fetchPastTopFaults s hs⟩, fun t h ht => ?_⟩
  · have hf : s.Fetches 0x01 (s.byteAt (s.pc.toNat + 1)) (s.byteAt (s.pc.toNat + 2)) := ⟨hs, hpc, hop, rfl, rfl⟩
    exact step_of_short (i := .hlt) hf rfl .hlt nofun (by decide)
  · rcases step_status hs h with hr | ⟨-, hop⟩ | ⟨r, hr, -⟩
    · cases hr.symm.trans ht
    · exact hop
    · cases hr.symm.trans ht

/-! ### Nothing reads `fl` or `out` -/

/-- The state with other flags and another output trace. -/
def State.withTrace (s : State) (f : Byte) (o : List Byte) : State := { s with fl := f, out := o }

/-- Flags and trace `f'`, `o'` follow on `f`, `o` as those of `t` do on those of `s`: the same flags written or none, the
same bytes emitted. -/
def TraceFollows (s t : State) (f f' : Byte) (o o' : List Byte) : Prop :=
  (f' = t.fl ∨ (f' = f ∧ t.fl = s.fl)) ∧ ∃ emitted : List Byte, t.out = s.out ++ emitted ∧ o' = o ++ emitted

theorem TraceFollows.of_unchanged {s t : State} (f : Byte) (o : List Byte) (hfl : t.fl = s.fl) (hout : t.out = s.out) :
    TraceFollows s t f f o o :=
  ⟨.inr ⟨rfl, hfl⟩, [], by rw [hout, List.append_nil], (List.append_nil o).symm⟩

/-- An instruction that completes does so with other flags and another trace as well. -/
theorem Completes.withTrace {i : Instr} {s t : State} (h : Completes s i t) (f : Byte) (o : List Byte) :
    ∃ f' o', Completes (s.withTrace f o) i (t.withTrace f' o') ∧ TraceFollows s t f f' o o' := by
  cases h with
  | hlt => exact ⟨f, o, .hlt, .of_unchanged f o rfl rfl⟩
  | ldi v ha => exact ⟨f, o, .ldi v ha, .of_unchanged f o rfl rfl⟩
  | prn ha => exact ⟨f, _, .prn ha, .inr ⟨rfl, rfl⟩, _, rfl, rfl⟩
  | mul ha hb => exact ⟨f, o, .mul ha hb, .of_unchanged f o rfl rfl⟩
  | add ha hb => exact ⟨f, o, .add ha hb, .of_unchanged f o rfl rfl⟩
  | cmp ha hb => exact ⟨_, o, .cmp ha hb, .inl rfl, [], (List.append_nil _).symm, (List.append_nil o).symm⟩
  | push ha hsp => exact ⟨f, o, .push ha hsp, .of_unchanged f o rfl rfl⟩
  | pop ha hsp => exact ⟨f, o, .pop ha hsp, .of_unchanged f o rfl rfl⟩
  | call ha hsp => exact ⟨f, o, .call ha hsp, .of_unchanged f o rfl rfl⟩
  | ret hsp => exact ⟨f, o, .ret hsp, .of_unchanged f o rfl rfl⟩
  | jmp v hsp => exact ⟨f, o, .jmp v hsp, .of_unchanged f o rfl rfl⟩

/-- An instruction that aborts does so, with the same fault, whatever the flags and the trace. -/
theorem Aborts.withTrace {i : Instr} {s : State} {r : Fault} (h : Aborts s i r) (f : Byte) (o : List Byte) :
    Aborts (s.withTrace f o) i r := by
  cases h with
  | index hi ha => exact .index hi ha
  | secondIndex hi ha hb => exact .secondIndex hi ha hb
  | push ha hsp => exact .push ha hsp
  | pop ha hsp => exact .pop ha hsp
  | call ha hsp => exact .call ha hsp
  | ret hsp => exact .ret hsp
  | jmp v hsp => exact .jmp v hsp

theorem advance_withTrace (ir : Byte) (s : State) (f : Byte) (o : List Byte) :
    advance ir (s.withTrace f o) = (advance ir s).withTrace f o := by
  rw [advance_eq, advance_eq]
  simp only [apply_ite (State.withTrace · f o)]
  rfl

/-- A step with other flags and another trace is the same step on the rest. -/
theorem step_withTrace {s t : State} (h : step s = .next t) (f : Byte) (o : List Byte) :
    ∃ f' o', step (s.withTrace f o) = .next (t.withTrace f' o') ∧ TraceFollows s t f f' o o' := by
  by_cases hs : s.status = .running
  · have hs' : (s.withTrace f o).status = .running := hs
    cases step_cases hs h with
    | fetchFault hpc => exact ⟨f, o, CycleEnds.step hs' (.fetchFault hpc), .of_unchanged f o rfl rfl⟩
    | unrecognized hf hir => exact ⟨f, o, CycleEnds.step hs' (.unrecognized hf hir), .of_unchanged f o rfl rfl⟩
    | aborts hf hd hr =>
      exact ⟨f, o, CycleEnds.step hs' (.aborts hf hd (hr.withTrace f o)), .of_unchanged f o rfl rfl⟩
    | completes hf hd hc =>
      obtain ⟨f', o', hc', hfollows⟩ := hc.withTrace f o
      refine ⟨f', o', ?_, by simpa [TraceFollows] using hfollows⟩
      rw [← advance_withTrace]
      exact CycleEnds.step hs' (.completes hf hd hc')
  · cases (step_ended hs).symm.trans h
    exact ⟨f, o, step_ended hs, .of_unchanged f o rfl rfl⟩

/-- Settles O41: the second step is the first with another trace. -/
theorem flagsAndOutputSteerNothing : Obligations.FlagsAndOutputSteerNothing := by
  intro s t f o h
  obtain ⟨f', o', hstep, hfollows⟩ := step_withTrace h f o
  exact ⟨t.withTrace f' o', hstep, rfl, rfl, rfl, rfl, hfollows⟩

/-! ### The invariant -/

/-- A handler keeps canonical memory canonical. -/
theorem exec_mem_wf {i : Instr} {s t : State} (h : exec i s = .next t) (hw : Memory.wf s.mem = true) :
    Memory.wf t.mem = true := by
  rcases exec_mem h with hm | ⟨-, -, v, hm⟩
  · rwa [hm]
  · rw [hm]
    exact Memory.wf_write s.mem _ v hw (s.sp - 1).isLt

/-- A handler keeps the flags one of the four values of R31. -/
theorem exec_flagsLegal {i : Instr} {s t : State} (h : exec i s = .next t) (hl : flagsLegal s.fl = true) :
    flagsLegal t.fl = true := by
  rcases exec_fl h with hf | ⟨-, hf | hf | hf⟩
  · rwa [hf]
  all_goals rw [hf]; rfl

/-- Settles O48: memory and flags by what a handler can write, the status by what a step can make it. -/
theorem stepKeepsInvariant : Obligations.StepKeepsInvariant := by
  rintro s t ⟨hmem, hfl, hstatus⟩ h
  have hkept : Memory.wf t.mem = true ∧ flagsLegal t.fl = true := by
    rcases step_effect h with rfl | ⟨r, rfl⟩ | ⟨i, opa, opb, u, -, -, hu, rfl⟩
    · exact ⟨hmem, hfl⟩
    · exact ⟨hmem, hfl⟩
    · rw [advance_mem, advance_fl]
      exact ⟨exec_mem_wf hu hmem, exec_flagsLegal hu hfl⟩
  refine ⟨hkept.1, hkept.2, ?_⟩
  by_cases hs : s.status = .running
  · rcases step_status hs h with hr | ⟨hr, -⟩ | ⟨r, hr, hlegal⟩
    · rw [hr]; rfl
    · rw [hr]; rfl
    · rw [hr]; exact hlegal
  · cases (step_ended hs).symm.trans h
    exact hstatus

end Sys2Proof.Machine

/-! Stack round trips (spec/20_memory.md section 5, spec/95_test_vectors.md S4, S5): what a completed PUSH, POP or CALL
leaves, and what the next fetch, the POP or the RET reads of it. -/

namespace Sys2Proof.Machine

open Sys2Proof Sys2Proof.Laws.Encoding

/-- A sum of a byte and a small number that stays below 256. -/
theorem toNat_add_ofNat {b : Byte} {n : Nat} (h : b.toNat + n < 256) : (b + BitVec.ofNat 8 n).toNat = b.toNat + n := by
  rw [BitVec.toNat_add, BitVec.toNat_ofNat]
  omega

/-- A stored byte is read back. -/
theorem State.byteAt_store_self (s : State) (addr v : Byte) (hw : Memory.wf s.mem = true) :
    (s.store addr v).byteAt addr.toNat = v :=
  Memory.read_write_self s.mem addr.toNat v hw

/-- A store leaves every other cell alone. -/
theorem State.byteAt_store_other (s : State) (addr v : Byte) {a : Nat} (h : a ≠ addr.toNat) :
    (s.store addr v).byteAt a = s.byteAt a :=
  Memory.read_write_other s.mem addr.toNat a v h

/-- Writing a register's own value changes nothing. -/
theorem State.setReg_reg_self (s : State) (a : Fin 8) : s.setReg a (s.reg a) = s := by
  simp [State.setReg, State.reg]

/-- The increment undoes the decrement. -/
theorem State.decSp_incSp_x (s : State) : s.decSp.incSp.x = s.x := by
  simp [Vector.set_set, Vector.getElem_set_self]

/-- The state after the cycle of a PUSH that completes. -/
def State.afterPush (s : State) (a : Fin 8) : State := (s.decSp.store (s.sp - 1) (s.decSp.reg a)).setPc (s.pc + 2)

theorem step_push {s : State} {a b : Byte} (hf : s.Fetches 0x45 a b) (ha : a.toNat < 8) (hsp : s.sp.toNat ≠ 0) :
    step s = .next (s.afterPush ⟨a.toNat, ha⟩) :=
  step_of_short (i := .push a) hf rfl (.push ha hsp) nofun le_rfl

theorem State.afterPush_sp (s : State) (a : Fin 8) : (s.afterPush a).sp = s.sp - 1 := s.decSp_sp

theorem State.afterPush_reg (s : State) (a b : Fin 8) : (s.afterPush a).reg b = s.decSp.reg b := rfl

/-- The pushed byte is the register's as the decrement left it. -/
theorem State.byteAt_afterPush_self (s : State) (a : Fin 8) (hw : Memory.wf s.mem = true) :
    (s.afterPush a).byteAt (s.sp - 1).toNat = s.decSp.reg a :=
  s.decSp.byteAt_store_self (s.sp - 1) _ hw

theorem State.byteAt_afterPush_other (s : State) (a : Fin 8) {n : Nat} (h : n ≠ (s.sp - 1).toNat) :
    (s.afterPush a).byteAt n = s.byteAt n :=
  s.decSp.byteAt_store_other (s.sp - 1) _ h

/-- The next fetch is two bytes on. -/
theorem State.afterPush_pc (s : State) (a : Fin 8) (h : s.pc.toNat ≤ 253) : (s.afterPush a).pc.toNat = s.pc.toNat + 2 :=
  toNat_add_ofNat (n := 2) (by omega)

/-- A fetched POP of the byte that its destination already holds only moves the stack pointer. -/
theorem step_pop_of_top_eq_reg {t : State} {a b : Byte} (hf : t.Fetches 0x46 a b) (ha : a.toNat < 8)
    (htop : t.top = t.reg ⟨a.toNat, ha⟩) (hsp : t.sp.toNat ≠ 255) : step t = .next (t.incSp.setPc (t.pc + 2)) := by
  have hload : t.setReg ⟨a.toNat, ha⟩ t.top = t := by rw [htop, t.setReg_reg_self]
  have hc : Completes t (.pop a) t.incSp := by
    have h := Completes.pop (s := t) ha (by rwa [hload])
    rwa [hload] at h
  exact step_of_short (i := .pop a) hf rfl hc nofun le_rfl

/-- Settles O44: the push address is the address of the next opcode byte. -/
theorem storedByteIsFetchedNext : Obligations.StoredByteIsFetchedNext := by
  intro s a b ha hw hf hpc hsp
  have ha8 : a.toNat < 8 := by omega
  have hnz : s.sp.toNat ≠ 0 := by rw [State.sp_eq]; omega
  have hpc' : (s.afterPush ⟨a.toNat, ha8⟩).pc.toNat = s.pc.toNat + 2 := s.afterPush_pc _ (by omega)
  have haddr : (s.sp - 1).toNat = s.pc.toNat + 2 := by
    rw [State.toNat_sp_sub_one hnz, State.sp_eq, hsp]
    omega
  refine ⟨_, step_push hf ha8 hnz, hf.1, ?_, ?_, ?_, ?_⟩
  all_goals rw [hpc']
  · omega
  · rw [← haddr, s.byteAt_afterPush_self _ hw, State.reg_decSp, if_neg (by omega)]
  · exact s.byteAt_afterPush_other _ (by omega)
  · exact s.byteAt_afterPush_other _ (by omega)

/-- Settles O45: the byte on top after the PUSH is what the register holds then, so the POP only increments `x[7]`. -/
theorem pushThenPopRestores : Obligations.PushThenPopRestores := by
  intro s a b ha hw hf hpc hop hopa hsp hne3 hne4
  have hnz : s.sp.toNat ≠ 0 := Nat.one_le_iff_ne_zero.1 hsp
  have haddr : (s.sp - 1).toNat = s.x[7].toNat - 1 := State.toNat_sp_sub_one hnz
  have hpc' : (s.afterPush ⟨a.toNat, ha⟩).pc.toNat = s.pc.toNat + 2 := s.afterPush_pc _ (by omega)
  have hfpop : (s.afterPush ⟨a.toNat, ha⟩).Fetches 0x46 a
      ((s.afterPush ⟨a.toNat, ha⟩).byteAt (s.pc.toNat + 2 + 2)) := by
    refine ⟨hf.1, ?_, ?_, ?_, ?_⟩
    all_goals rw [hpc']
    · omega
    · rwa [s.byteAt_afterPush_other _ (by omega)]
    · rwa [s.byteAt_afterPush_other _ (by omega)]
  have htop : (s.afterPush ⟨a.toNat, ha⟩).top = (s.afterPush ⟨a.toNat, ha⟩).reg ⟨a.toNat, ha⟩ := by
    rw [State.top, State.afterPush_sp, s.byteAt_afterPush_self _ hw, State.afterPush_reg]
  have hlt : s.x[7].toNat < 256 := s.x[7].isLt
  have hpop := step_pop_of_top_eq_reg hfpop ha htop (by rw [State.afterPush_sp, haddr]; omega)
  refine ⟨_, _, step_push hf ha hnz, hpop, s.decSp_incSp_x, ?_, rfl, rfl, hf.1, fun n hn => ?_⟩
  · show s.pc + 2 + 2 = s.pc + 4
    rw [BitVec.add_assoc]
    rfl
  · have hne : (n : Int) ≠ s.x[7].toNat - 1 := hn
    exact s.byteAt_afterPush_other _ (by omega)

/-- Settles O46: the byte on top of the stack in `u` is the one that the CALL pushed. -/
theorem callThenRetReturns : Obligations.CallThenRetReturns := by
  intro s t u v a b ha hsp hw hf ht husp hutop hv
  have hnz : s.sp.toNat ≠ 0 := Nat.one_le_iff_ne_zero.1 hsp
  cases ht.symm.trans (step_of_jump (i := .call a) hf rfl (.call ha hnz) rfl)
  have hcalled : ((s.decSp.store (s.sp - 1) (BitVec.ofNat 8 (returnAddress s))).setPc
      (s.decSp.reg ⟨a.toNat, ha⟩)).x[7] = s.sp - 1 := s.decSp_sp
  rw [hcalled] at husp hutop
  have htop : u.top = s.pc + 2 := by
    rw [State.top, State.sp_eq, husp, hutop, ← ofNat_returnAddress]
    exact State.byteAt_store_self s.decSp (s.sp - 1) _ hw
  have hlt : s.sp.toNat < 256 := s.sp.isLt
  have hfits : u.sp.toNat ≠ 255 := by
    rw [State.sp_eq, husp, State.toNat_sp_sub_one hnz]
    omega
  cases hv.symm.trans (exec_of_completes (.ret hfits))
  refine ⟨htop, ?_, rfl⟩
  rw [State.incSp_x, Vector.getElem_set_self, State.setPc_x, husp]
  exact BitVec.sub_add_cancel s.sp 1

end Sys2Proof.Machine

/-! The host's events (spec/70_reset_and_hazards.md R230 to R235): what reset, load, run and launch answer, as equations, and
the obligations about them; then the model's own way of placing one instruction. -/

namespace Sys2Proof.Machine

open Sys2Proof

/-! ### The loader's writes to memory -/

/-- The bytes at successive addresses from `n` on. -/
def Memory.writeAll : Nat → List Byte → Memory → Memory
  | _, [], m => m
  | n, b :: rest, m => Memory.writeAll (n + 1) rest (Memory.write m n b)

/-- The loader within the address space writes memory and nothing else (R233). -/
theorem loadFrom_eq : ∀ (p : List Byte) (n : Nat) (s : State), n + p.length ≤ 256 →
    loadFrom n p s = .ok { s with mem := Memory.writeAll n p s.mem }
  | [], _, _, _ => rfl
  | b :: rest, n, s, h => by
    have hlen : n + 1 + rest.length ≤ 256 := by rw [List.length_cons] at h; omega
    have hwrite : memWrite n b.toNat s = .ok { s with mem := Memory.write s.mem n b } := by
      rw [memWrite_inBounds b.toNat s ⟨by omega, by omega⟩, Int.toNat_natCast, BitVec.ofNat_toNat, BitVec.setWidth_eq]
    rw [loadFrom, hwrite]
    exact loadFrom_eq rest (n + 1) { s with mem := Memory.write s.mem n b } hlen

theorem Memory.wf_writeAll : ∀ (p : List Byte) (n : Nat) (m : Memory), n + p.length ≤ 256 → Memory.wf m = true →
    Memory.wf (Memory.writeAll n p m) = true
  | [], _, _, _, hw => hw
  | b :: rest, n, m, h, hw => by
    rw [List.length_cons] at h
    have hn : n < Config.memSize := by unfold Config.memSize; omega
    exact Memory.wf_writeAll rest (n + 1) (Memory.write m n b) (by omega) (Memory.wf_write m n b hw hn)

/-- The written cells hold the program, the others what they held. -/
theorem Memory.read_writeAll : ∀ (p : List Byte) (n : Nat) (m : Memory) (a : Nat), n + p.length ≤ 256 →
    Memory.wf m = true → Memory.read (Memory.writeAll n p m) a =
      if n ≤ a ∧ a < n + p.length then p.getD (a - n) 0 else Memory.read m a
  | [], n, m, a, _, _ => by
    rw [if_neg (by rw [List.length_nil]; omega)]
    rfl
  | b :: rest, n, m, a, h, hw => by
    rw [List.length_cons] at h ⊢
    have hn : n < Config.memSize := by unfold Config.memSize; omega
    rw [Memory.writeAll, Memory.read_writeAll rest (n + 1) _ a (by omega) (Memory.wf_write m n b hw hn)]
    rcases Nat.lt_trichotomy a n with hlt | rfl | hgt
    · rw [if_neg (by omega), if_neg (by omega), Memory.read_write_other m n a b (by omega)]
    · rw [if_neg (by omega), if_pos (by omega), Memory.read_write_self m a b hw, Nat.sub_self, List.getD_cons_zero]
    · by_cases hin : a < n + 1 + rest.length
      · rw [if_pos (by omega), if_pos (by omega), show a - n = (a - (n + 1)) + 1 by omega, List.getD_cons_succ]
      · rw [if_neg (by omega), if_neg (by omega), Memory.read_write_other m n a b (by omega)]

/-! ### Each event's answer -/

/-- A load of at most 256 bytes while `Idle` (R233). -/
theorem State.load_eq {s : State} {p : List Byte} (hs : s.status = .idle) (hp : p.length ≤ 256) :
    s.load p = .next { s with mem := Memory.writeAll 0 p s.mem } := by
  have hlen : ¬ Config.memSize < p.length := by unfold Config.memSize; omega
  have hload : loadFrom Config.loadBase p s = .ok { s with mem := Memory.writeAll 0 p s.mem } :=
    loadFrom_eq p 0 s (by omega)
  rw [State.load, if_neg (not_not_intro hs), if_neg hlen, hload, settle_ok]

/-- No other load answers a next state (notes/assumptions/8.md). -/
theorem State.load_next {s t : State} {p : List Byte} (h : s.load p = .next t) :
    s.status = .idle ∧ p.length ≤ 256 ∧ t = { s with mem := Memory.writeAll 0 p s.mem } := by
  by_cases hs : s.status = .idle
  · by_cases hp : p.length ≤ 256
    · rw [State.load_eq hs hp] at h
      cases h
      exact ⟨hs, hp, rfl⟩
    · have hlen : Config.memSize < p.length := by unfold Config.memSize; omega
      rw [State.load, if_neg (not_not_intro hs), if_pos hlen] at h
      cases h
  · rw [State.load, if_pos hs] at h
    cases h

theorem State.run_of_idle {s : State} (h : s.status = .idle) : s.run = s.setStatus .running := by
  rw [State.run, h]

theorem State.run_of_not_idle {s : State} (h : s.status ≠ .idle) : s.run = s := by
  unfold State.run
  split
  · exact absurd ‹_› h
  all_goals rfl

/-- The launch of a program of at most 256 bytes (R235). -/
theorem State.launch_eq {p : List Byte} (hp : p.length ≤ 256) :
    State.launch p = .next { State.reset with mem := Memory.writeAll 0 p [], status := .running } := by
  rw [State.launch, State.load_eq rfl hp]
  rfl

/-! ### The obligations about the events -/

/-- Settles O47: reset leaves no entry in memory and no fault. -/
theorem resetMeetsInvariant : Obligations.ResetMeetsInvariant :=
  ⟨State.reset_mem_wf, rfl, rfl⟩

/-- The registers below the stack pointer after reset (R40). -/
theorem State.reset_reg : ∀ j : Fin 8, j.val < 7 → State.reset.reg j = 0 := by
  decide

/-- Settles O50: the reset event answers `State.reset`, whatever the state. -/
theorem resetValues : Obligations.ResetValues :=
  fun _ => ⟨fun _ => rfl, State.reset_reg, rfl, rfl, rfl, rfl, rfl, rfl⟩

/-- Settles O53: the two cases of `run`. -/
theorem runStartsAnIdleMachine : Obligations.RunStartsAnIdleMachine :=
  fun _ => ⟨State.run_of_idle, State.run_of_not_idle⟩

/-- Settles O12: the step by the ends of a cycle, the events by their answers. -/
theorem statusTransitions : Obligations.StatusTransitions := by
  refine ⟨fun s hs => step_ended hs, fun s t => step_not_idle, fun p s t h => ?_, fun s => ?_, fun _ => rfl⟩
  · obtain ⟨hs, -, rfl⟩ := State.load_next h
    exact ⟨hs, hs⟩
  · by_cases hs : s.status = .idle
    · rw [if_pos hs, State.run_of_idle hs, State.setStatus_status]
    · rw [if_neg hs, State.run_of_not_idle hs]

/-- Settles O49: `run` and the load write what the invariant does not restrict, or keep memory canonical. -/
theorem eventsKeepInvariant : Obligations.EventsKeepInvariant := by
  rintro s ⟨hmem, hfl, hstatus⟩
  refine ⟨?_, resetMeetsInvariant, fun p t h => ?_⟩
  · by_cases hs : s.status = .idle
    · rw [State.run_of_idle hs]
      exact ⟨hmem, hfl, rfl⟩
    · rw [State.run_of_not_idle hs]
      exact ⟨hmem, hfl, hstatus⟩
  · obtain ⟨-, hp, rfl⟩ := State.load_next h
    exact ⟨Memory.wf_writeAll p 0 s.mem (by omega) hmem, hfl, hstatus⟩

/-- Settles O51: the load is one update of memory, and the program lies from address 0. -/
theorem loaderWritesProgramFromZero : Obligations.LoaderWritesProgramFromZero := by
  intro p s hs hp hw
  refine ⟨_, State.load_eq hs hp, fun a => ?_, rfl, rfl, rfl, rfl, rfl⟩
  simpa [State.byteAt] using Memory.read_writeAll p 0 s.mem a (by omega) hw

/-- Settles O52: the launch starts from the reset state, whose memory is empty. -/
theorem launchStateIsTheProgram : Obligations.LaunchStateIsTheProgram := by
  intro p hp
  refine ⟨_, State.launch_eq hp, fun a => ?_, State.reset_reg, rfl, rfl, rfl, rfl, rfl⟩
  refine (Memory.read_writeAll p 0 [] a (by omega) rfl).trans ?_
  by_cases ha : a < p.length
  · rw [if_pos (by omega), Nat.sub_zero]
  · rw [if_neg (by omega), List.getD_eq_default _ _ (by omega)]
    rfl

/-! ### A placed instruction word -/

/-- The word's three bytes are read back. -/
theorem read_placeWord {m : Memory} {base : Nat} (w : Nat) (hw : Memory.wf m = true) (hb : base + 2 < Config.memSize) :
    Memory.read (placeWord m base w) base = byteOfWord w 0 ∧
    Memory.read (placeWord m base w) (base + 1) = byteOfWord w 1 ∧
    Memory.read (placeWord m base w) (base + 2) = byteOfWord w 2 := by
  have hw0 := Memory.wf_write m base (byteOfWord w 0) hw (by omega)
  have hw1 := Memory.wf_write _ (base + 1) (byteOfWord w 1) hw0 (by omega)
  unfold placeWord
  refine ⟨?_, ?_, Memory.read_write_self _ _ _ hw1⟩
  · rw [Memory.read_write_other _ _ _ _ (by omega), Memory.read_write_other _ _ _ _ (by omega),
      Memory.read_write_self _ _ _ hw]
  · rw [Memory.read_write_other _ _ _ _ (by omega), Memory.read_write_self _ _ _ hw0]

/-- The place is one where a fetch can succeed. -/
theorem fetchBase_le (s : State) : (fetchBase s).toNat ≤ 253 := by
  unfold fetchBase Config.memSize
  split
  · omega
  · decide

/-- The next fetch latches the placed word. -/
theorem State.withFetchWord_fetches (s : State) (nbits w : Nat) (hw : Memory.wf s.mem = true) :
    (s.withFetchWord nbits w).Fetches (byteOfWord (tableWord nbits w) 0) (byteOfWord (tableWord nbits w) 1)
      (byteOfWord (tableWord nbits w) 2) := by
  have hbase := fetchBase_le s
  have hfits : (fetchBase s).toNat + 2 < Config.memSize := by unfold Config.memSize; omega
  exact ⟨rfl, hbase, read_placeWord _ hw hfits⟩

/-- An answer that is read as an instruction is that instruction. -/
theorem eq_ok_of_toOption_eq_some {answer : Except DecodeError Instr} {i : Instr} (h : answer.toOption = some i) :
    answer = .ok i := by
  cases answer with
  | ok j => exact congrArg Except.ok (Option.some.inj h)
  | error e => cases h

/-- A table word that decodes is three bytes that decode. -/
theorem decode_of_decodeTableWord {nbits w : Nat} {i : Instr} (h : decodeTableWord nbits w = some i) :
    decode (byteOfWord (tableWord nbits w) 0) (byteOfWord (tableWord nbits w) 1) (byteOfWord (tableWord nbits w) 2) =
      .ok i :=
  eq_ok_of_toOption_eq_some h

/-- Settles O54: the fetch latches the placed word, so the step runs what it decodes to. -/
theorem placedWordRunsNext : Obligations.PlacedWordRunsNext := by
  intro s nbits w i hw hi
  have hd := decode_of_decodeTableWord hi
  obtain ⟨t, ht⟩ := exec_next i (s.withFetchWord nbits w)
  refine ⟨t, ht, ?_⟩
  rw [step_of_fetches_decode (s.withFetchWord_fetches nbits w hw) hd, ht, finishCycle_next,
    (eq_encode_of_decode hd).1]

end Sys2Proof.Machine

/-! Runs (spec/40_dispatch_cycle.md R120 to R122): a run can be cut anywhere, ends once, and halts by a HLT; then the
canonical form of memory, which has one list for each content. -/

namespace Sys2Proof.Machine

open Sys2Proof

/-! ### Cutting a run -/

/-- Settles O55: one unit of fuel is one step on both sides, and a step always answers a next state. -/
theorem runLoopIsIteratedStep : Obligations.RunLoopIsIteratedStep := by
  intro fuel
  induction fuel with
  | zero => exact fun _ => rfl
  | succ fuel ih =>
    intro s
    obtain ⟨t, ht⟩ := everyStepAnswersNext s
    rw [runLoop_succ ht, ih t]
    exact (core_run_succ (M := Sys2Proof.core) ht fuel).symm

/-- Under any fuel a run comes to a state. -/
theorem runLoop_next : ∀ (fuel : Nat) (s : State), ∃ t, runLoop fuel s = .next t
  | 0, s => ⟨s, rfl⟩
  | fuel + 1, s => by
    obtain ⟨t, ht⟩ := everyStepAnswersNext s
    rw [runLoop_succ ht]
    exact runLoop_next fuel t

/-- A run goes on from where it was cut. -/
theorem runLoop_add {m : Nat} {s t : State} (h : runLoop m s = .next t) (n : Nat) :
    runLoop (m + n) s = runLoop n t := by
  induction m generalizing s with
  | zero => cases h; rw [Nat.zero_add]
  | succ m ih =>
    obtain ⟨u, hu⟩ := everyStepAnswersNext s
    rw [runLoop_succ hu] at h
    rw [Nat.succ_add, runLoop_succ hu, ih h]

/-- Where a run has ended, more fuel changes nothing. -/
theorem runLoop_of_le {m n : Nat} {s t : State} (h : runLoop m s = .next t) (ht : t.status ≠ .running) (hle : m ≤ n) :
    runLoop n s = .next t := by
  obtain ⟨k, rfl⟩ := Nat.exists_eq_add_of_le hle
  rw [runLoop_add h, runLoop_ended ht]

/-- Settles O56. -/
theorem fuelOnlyExtendsARun : Obligations.FuelOnlyExtendsARun :=
  fun m n _ _ h => ⟨runLoop_add h n, fun ht => runLoop_of_le h ht (Nat.le_add_right m n)⟩

/-! ### The end of a run -/

/-- A run has at most one end. -/
theorem runLoop_end_unique {m n : Nat} {s t u : State} (ht : runLoop m s = .next t) (hu : runLoop n s = .next u)
    (hts : t.status ≠ .running) (hus : u.status ≠ .running) : t = u := by
  rcases Nat.le_total m n with hle | hle
  · exact Host.Outcome.next.inj ((runLoop_of_le ht hts hle).symm.trans hu)
  · exact (Host.Outcome.next.inj ((runLoop_of_le hu hus hle).symm.trans ht)).symm

/-- No run comes to `Idle` from another status. -/
theorem runLoop_not_idle {fuel : Nat} {s t : State} (hs : s.status ≠ .idle) (h : runLoop fuel s = .next t) :
    t.status ≠ .idle := by
  induction fuel generalizing s with
  | zero => cases h; exact hs
  | succ fuel ih =>
    obtain ⟨u, hu⟩ := everyStepAnswersNext s
    rw [runLoop_succ hu] at h
    by_cases hrun : s.status = .running
    · exact ih (step_not_idle hrun hu) h
    · cases (step_ended hrun).symm.trans hu
      exact ih hs h

/-- A run that has ended does not run for ever. -/
theorem not_neverEnds {fuel : Nat} {s t : State} (h : runLoop fuel s = .next t) (ht : t.status ≠ .running) :
    ¬ NeverEnds s := by
  intro hnever
  obtain ⟨u, hu, hrun⟩ := hnever fuel
  cases h.symm.trans hu
  exact ht hrun

/-- A run that does not run for ever has come to `Halted` or `Faulted`. -/
theorem ends_of_not_neverEnds {s : State} (hs : s.status = .running) (h : ¬ NeverEnds s) :
    EndsHalted s ∨ ∃ r, EndsFaulted r s := by
  obtain ⟨fuel, hfuel⟩ := not_forall.1 h
  obtain ⟨t, ht⟩ := runLoop_next fuel s
  match hstatus : t.status with
  | .idle => exact absurd hstatus (runLoop_not_idle (by rw [hs]; nofun) ht)
  | .running => exact absurd ⟨t, ht, hstatus⟩ hfuel
  | .halted => exact .inl ⟨fuel, t, ht, hstatus⟩
  | .faulted r => exact .inr ⟨r, fuel, t, ht, hstatus⟩

/-- Settles O57: the three fates by whether some amount of fuel suffices, their exclusion by the one end of a run. -/
theorem runHasExactlyOneFate : Obligations.RunHasExactlyOneFate := by
  intro s hs
  refine ⟨?_, ?_, ?_, ?_, ?_⟩
  · by_cases hnever : NeverEnds s
    · exact .inr (.inr hnever)
    · exact (ends_of_not_neverEnds hs hnever).imp_right .inl
  · rintro ⟨⟨m, t, ht, hhalt⟩, r, n, u, hu, hfault⟩
    cases runLoop_end_unique ht hu (by rw [hhalt]; nofun) (by rw [hfault]; nofun)
    cases hhalt.symm.trans hfault
  · rintro ⟨⟨m, t, ht, hhalt⟩, hnever⟩
    exact not_neverEnds ht (by rw [hhalt]; nofun) hnever
  · rintro ⟨⟨r, m, t, ht, hfault⟩, hnever⟩
    exact not_neverEnds ht (by rw [hfault]; nofun) hnever
  · rintro r q ⟨m, t, ht, hr⟩ ⟨n, u, hu, hq⟩
    cases runLoop_end_unique ht hu (by rw [hr]; nofun) (by rw [hq]; nofun)
    exact Status.faulted.inj (hr.symm.trans hq)

/-! ### A run halts by a HLT -/

/-- A run that executes a HLT after its first step executes one. -/
theorem ExecutesHlt.of_step {s t : State} (h : step s = .next t) (ht : ExecutesHlt t) : ExecutesHlt s := by
  obtain ⟨fuel, u, opa, opb, hu, hf⟩ := ht
  exact ⟨fuel + 1, u, opa, opb, (runLoop_succ h fuel).trans hu, hf⟩

/-- A step of a running machine to `Halted` executes a HLT: a fetch at 254 or above does not halt. -/
theorem executesHlt_of_step_halted {s t : State} (hs : s.status = .running) (h : step s = .next t)
    (ht : t.status = .halted) : ExecutesHlt s := by
  have hop : s.byteAt s.pc.toNat = 0x01 := (hltCycle s hs).2 t h ht
  have hpc : s.pc.toNat ≤ 253 := by
    by_contra hpc
    cases h.symm.trans (fetchPastTopFaults s hs (by omega))
    cases ht
  exact ⟨0, s, _, _, rfl, hs, hpc, hop, rfl, rfl⟩

/-- The HLT of a run to `Halted` is in the last cycle before the status changed. -/
theorem executesHlt_of_runLoop {fuel : Nat} {s t : State} (hs : s.status = .running) (h : runLoop fuel s = .next t)
    (ht : t.status = .halted) : ExecutesHlt s := by
  induction fuel generalizing s with
  | zero =>
    cases h
    cases hs.symm.trans ht
  | succ fuel ih =>
    obtain ⟨u, hu⟩ := everyStepAnswersNext s
    rw [runLoop_succ hu] at h
    by_cases hrun : u.status = .running
    · exact .of_step hu (ih hrun h)
    · cases (runLoop_ended hrun fuel).symm.trans h
      exact executesHlt_of_step_halted hs hu ht

/-- Settles O58: the HLT of a halting run is found by induction; an executed HLT halts one cycle later. -/
theorem runHaltsIffHltIsExecuted : Obligations.RunHaltsIffHltIsExecuted := by
  intro s hs
  constructor
  · rintro ⟨fuel, t, h, ht⟩
    exact executesHlt_of_runLoop hs h ht
  · rintro ⟨fuel, t, opa, opb, h, hrun, hpc, hop, -⟩
    have hstep : step t = .next { t with status := .halted, pc := t.pc + 1 } :=
      (((hltCycle t hrun).1 hop).1 hpc).1
    exact ⟨fuel + 1, _, (runLoop_add h 1).trans (runLoop_succ hstep 0), rfl⟩

/-- Settles O59: the executor is the run loop from the launch state. -/
theorem executorFollowsTheLaunchedRun : Obligations.ExecutorFollowsTheLaunchedRun := by
  intro p hp
  refine ⟨_, State.launch_eq hp, rfl, fun fuel => ?_⟩
  obtain ⟨t, ht⟩ := runLoop_next fuel { State.reset with mem := Memory.writeAll 0 p [], status := .running }
  refine ⟨t, ?_, ht, runLoop_not_idle (by nofun) ht⟩
  rw [execute, State.launch_eq hp]
  exact ht

/-! ### Canonical memories -/

/-- The head of a canonical list, taken apart. -/
theorem Memory.wfFrom_cons {lo k : Nat} {w : Byte} {rest : Memory} (h : Memory.wfFrom lo ((k, w) :: rest) = true) :
    lo ≤ k ∧ w ≠ unlistedByte ∧ Memory.wfFrom (k + 1) rest = true := by
  simp only [Memory.wfFrom, Bool.and_eq_true, decide_eq_true_eq] at h
  obtain ⟨⟨⟨hlo, -⟩, hw⟩, hrest⟩ := h
  exact ⟨hlo, hw, hrest⟩

theorem Memory.read_head (k : Nat) (w : Byte) (rest : Memory) : Memory.read ((k, w) :: rest) k = w :=
  if_pos rfl

theorem Memory.read_tail {k a : Nat} (w : Byte) (rest : Memory) (h : k ≠ a) :
    Memory.read ((k, w) :: rest) a = Memory.read rest a :=
  if_neg h

/-- Of two canonical lists that read alike, neither starts above the other: the lower first entry would read in the other
list as an unlisted cell does. -/
theorem Memory.head_le {lo k l : Nat} {w v : Byte} {rest tail : Memory}
    (hm : Memory.wfFrom lo ((k, w) :: rest) = true) (hn : Memory.wfFrom lo ((l, v) :: tail) = true)
    (h : ∀ a, Memory.read ((k, w) :: rest) a = Memory.read ((l, v) :: tail) a) : k ≤ l := by
  obtain ⟨-, -, hrest⟩ := Memory.wfFrom_cons hm
  obtain ⟨-, hv, -⟩ := Memory.wfFrom_cons hn
  by_contra hlt
  have hread : Memory.read ((k, w) :: rest) l = unlistedByte :=
    (Memory.read_tail w rest (by omega)).trans (Memory.read_below rest (k + 1) l hrest (by omega))
  exact hv ((Memory.read_head l v tail).symm.trans ((h l).symm.trans hread))

/-- An empty memory reads like no canonical list with an entry. -/
theorem Memory.not_read_alike_nil {lo k : Nat} {w : Byte} {rest : Memory}
    (hm : Memory.wfFrom lo ((k, w) :: rest) = true) : ¬ ∀ a, Memory.read [] a = Memory.read ((k, w) :: rest) a := by
  intro h
  obtain ⟨-, hw, -⟩ := Memory.wfFrom_cons hm
  exact hw ((Memory.read_head k w rest).symm.trans (h k).symm)

/-- Canonical lists that read alike are equal, from any address: the heads are the lowest address that is not 0, and the
tails then read alike. -/
theorem Memory.eq_of_read_eq : ∀ (m n : Memory) (lo : Nat), Memory.wfFrom lo m = true → Memory.wfFrom lo n = true →
    (∀ a, Memory.read m a = Memory.read n a) → m = n
  | [], [], _, _, _, _ => rfl
  | [], _ :: _, _, _, hn, h => absurd h (Memory.not_read_alike_nil hn)
  | _ :: _, [], _, hm, _, h => absurd (fun a => (h a).symm) (Memory.not_read_alike_nil hm)
  | (k, w) :: rest, (l, v) :: tail, lo, hm, hn, h => by
    obtain rfl : k = l := Nat.le_antisymm (Memory.head_le hm hn h) (Memory.head_le hn hm fun a => (h a).symm)
    obtain rfl : w = v := (Memory.read_head k w rest).symm.trans ((h k).trans (Memory.read_head k v tail))
    obtain ⟨-, -, hrest⟩ := Memory.wfFrom_cons hm
    obtain ⟨-, -, htail⟩ := Memory.wfFrom_cons hn
    have htails : ∀ a, Memory.read rest a = Memory.read tail a := by
      intro a
      by_cases hk : a = k
      · rw [Memory.read_below rest (k + 1) a hrest (by omega), Memory.read_below tail (k + 1) a htail (by omega)]
      · rw [← Memory.read_tail w rest (Ne.symm hk), ← Memory.read_tail w tail (Ne.symm hk), h a]
    rw [Memory.eq_of_read_eq rest tail (k + 1) hrest htail htails]

/-- Settles O6: both lists are canonical from address 0. -/
theorem canonicalMemoriesReadingAlikeAreEqual : Obligations.CanonicalMemoriesReadingAlikeAreEqual :=
  fun m n hm hn h => Memory.eq_of_read_eq m n 0 hm hn h

end Sys2Proof.Machine
